-- ==== Sys2Proof/Word.lean ====
section
/-! DEFINITION. The values of the machine: the field modulus, field elements, words, register numbers and buffer
names (00_scope.md R8, R12; 10_state.md R21, R23, R24). Their arithmetic stands in Machine/FieldOps.lean. -/

namespace Sys2Proof

/-- The field modulus P = 998244353 = 119 · 2^23 + 1 (00_scope.md R8). -/
abbrev P : Nat := 998244353

/-- An integer v with 0 ≤ v < P (10_state.md R20, R22). -/
abbrev FieldElem := Fin P

/-- A word of the host port: a command word, an offset or a data word (00_scope.md R12). -/
abbrev Word32 := BitVec 32

/-- The contents of an integer register (10_state.md R23). -/
abbrev Word64 := BitVec 64

/-- The number of a field register or of an integer register: 0 to 7, each value names one
(10_state.md R21, R23; 30_encoding.md R82). -/
abbrev RegNum := Fin 8

/-- The two coefficient buffers (10_state.md R24). -/
inductive BufSel where
  | buf0
  | buf1
deriving DecidableEq, Repr

end Sys2Proof
end

