-- ==== Sys2Proof/Syntax.lean ====
section
/-! DEFINITION. The commands of the MFAU, one constructor for each row of spec/opcode_table.json (30_encoding.md R84).
The arguments stand in the order of the syntax column of R84. -/

namespace Sys2Proof

/-- The seventeen commands. `fd`, `fa`, `fb`, `fs` number field registers; `xd`, `xe`, `xs`, `xi`, `xn`, `xl` number
integer registers; `b`, `t`, `f` name buffers (30_encoding.md R82). -/
inductive Instr where
  /-- NOP (44_control.md R180). -/
  | nop
  /-- FADD Fd, Fa, Fb (40_field_arithmetic.md R101). -/
  | fadd (fd fa fb : RegNum)
  /-- FSUB Fd, Fa, Fb (40_field_arithmetic.md R102). -/
  | fsub (fd fa fb : RegNum)
  /-- FMUL Fd, Fa, Fb (40_field_arithmetic.md R103). -/
  | fmul (fd fa fb : RegNum)
  /-- FDIV Fd, Fa, Fb (40_field_arithmetic.md R104). -/
  | fdiv (fd fa fb : RegNum)
  /-- FINV Fd, Fa (40_field_arithmetic.md R105). -/
  | finv (fd fa : RegNum)
  /-- FPOW Fd, Fa, Xe (40_field_arithmetic.md R106). -/
  | fpow (fd fa xe : RegNum)
  /-- FEQ Xd, Fa, Fb (40_field_arithmetic.md R107). -/
  | feq (xd fa fb : RegNum)
  /-- FNEW Fd, Xs (40_field_arithmetic.md R108). -/
  | fnew (fd xs : RegNum)
  /-- FLD Fd, BUFb[Xi] (40_field_arithmetic.md R109). -/
  | fld (fd : RegNum) (b : BufSel) (xi : RegNum)
  /-- FST Fs, BUFb[Xi] (40_field_arithmetic.md R110). -/
  | fst (fs : RegNum) (b : BufSel) (xi : RegNum)
  /-- BREV BUFb, Xn (41_bit_reversal.md R141). -/
  | brev (b : BufSel) (xn : RegNum)
  /-- BRPERM BUFb, Xn (41_bit_reversal.md R142). -/
  | brperm (b : BufSel) (xn : RegNum)
  /-- NTTF BUFb, Xn (42_ntt.md R154). -/
  | nttf (b : BufSel) (xn : RegNum)
  /-- NTTI BUFb, Xn (42_ntt.md R155). -/
  | ntti (b : BufSel) (xn : RegNum)
  /-- SQEXT BUFt, BUFf, Xl: to-buffer first, then from-buffer (43_square_extend.md R171). -/
  | sqext (t f : BufSel) (xl : RegNum)
  /-- CLRERR (44_control.md R182). -/
  | clrerr
deriving DecidableEq, Repr

end Sys2Proof
end

