-- ==== Sys2Proof/WellFormed.lean ====
section
/-! DEFINITION. Which command words are well formed, by the opcode map of 30_encoding.md R84 (the rows of
spec/opcode_table.json), and why there is nothing to check on an `Instr` term: its register numbers are `Fin 8`
and its buffers are `BufSel`, and "every value of RD, RS1 and RS2 names a register" (R82), so every term of the
type is a command of the spec. The check that can fail is the one on words. -/

namespace Sys2Proof

/-- One row of the opcode map of 30_encoding.md R84. -/
structure OpcodeRow where
  mnemonic : String
  matchWord : Word32
  mask : Word32
deriving DecidableEq, Repr

/-- The opcode map of 30_encoding.md R84, its field arithmetic rows. -/
def opcodeRowsField : List OpcodeRow :=
  [ ⟨"FADD", 0x01000000, 0xFF007FFF⟩,
    ⟨"FSUB", 0x02000000, 0xFF007FFF⟩,
    ⟨"FMUL", 0x03000000, 0xFF007FFF⟩,
    ⟨"FDIV", 0x04000000, 0xFF007FFF⟩,
    ⟨"FINV", 0x05000000, 0xFF03FFFF⟩,
    ⟨"FPOW", 0x06000000, 0xFF007FFF⟩,
    ⟨"FEQ",  0x07000000, 0xFF007FFF⟩,
    ⟨"FNEW", 0x08000000, 0xFF03FFFF⟩,
    ⟨"FLD",  0x09000000, 0xFF03BFFF⟩,
    ⟨"FST",  0x0A000000, 0xFFE03FFF⟩ ]

/-- The opcode map of 30_encoding.md R84, its buffer rows. -/
def opcodeRowsBuffer : List OpcodeRow :=
  [ ⟨"BREV",   0x10000000, 0xFFE3BFFF⟩,
    ⟨"BRPERM", 0x11000000, 0xFFE3BFFF⟩,
    ⟨"NTTF",   0x12000000, 0xFFE3BFFF⟩,
    ⟨"NTTI",   0x13000000, 0xFFE3BFFF⟩,
    ⟨"SQEXT",  0x14000000, 0xFFE39FFF⟩ ]

/-- The opcode map of 30_encoding.md R84, its control rows. -/
def opcodeRowsControl : List OpcodeRow :=
  [ ⟨"NOP",    0x00000000, 0xFFFFFFFF⟩,
    ⟨"CLRERR", 0x20000000, 0xFFFFFFFF⟩ ]

/-- The whole opcode map of 30_encoding.md R84. -/
def opcodeTable : List OpcodeRow := opcodeRowsControl ++ opcodeRowsField ++ opcodeRowsBuffer

/-- The bits outside OPC of a row's mask: mustzero(opc) of 30_encoding.md R83. -/
def OpcodeRow.mustZero (r : OpcodeRow) : Word32 := r.mask &&& 0x00FFFFFF

/-- The word is one of the row's words: (w AND mask) = match (30_encoding.md R83). -/
def OpcodeRow.admits (r : OpcodeRow) (w : Word32) : Bool := w &&& r.mask == r.matchWord

/-- Check 1: the word's opcode is not reserved (30_encoding.md R85). -/
def opcodeAssigned (w : Word32) : Bool :=
  opcodeTable.any fun r => w &&& 0xFF000000 == r.matchWord &&& 0xFF000000

/-- Check 2: the bits that the word's opcode does not use are zero (30_encoding.md R83, R85). -/
def mustZeroClear (w : Word32) : Bool :=
  opcodeTable.all fun r => w &&& 0xFF000000 != r.matchWord &&& 0xFF000000 || w &&& r.mustZero == 0

/-- A well-formed command word passes both checks. -/
def wellFormedWord (w : Word32) : Bool := opcodeAssigned w && mustZeroClear w

end Sys2Proof
end

