-- ==== Sys2Proof/Decode.lean ====
section
/-! DEFINITION. Decoding a command word (30_encoding.md R80 to R85), total on every 32-bit word and rejecting by
name, and the encoder written from the same format. -/

namespace Sys2Proof

/-- Why a word is ILLEGAL (30_encoding.md R83, R85). -/
inductive DecodeError where
  /-- The opcode is not in the opcode map. -/
  | reservedOpcode
  /-- A bit of a field that the opcode does not use is 1. -/
  | mustBeZero
deriving DecidableEq, Repr

/-- OPC, bits 31:24 (30_encoding.md R80). -/
def opcOf (w : Word32) : Nat := (w.extractLsb 31 24).toNat

/-- RD, bits 23:21 (30_encoding.md R80). -/
def rdOf (w : Word32) : RegNum := Fin.ofNat 8 (w.extractLsb 23 21).toNat

/-- RS1, bits 20:18 (30_encoding.md R80). -/
def rs1Of (w : Word32) : RegNum := Fin.ofNat 8 (w.extractLsb 20 18).toNat

/-- RS2, bits 17:15 (30_encoding.md R80). -/
def rs2Of (w : Word32) : RegNum := Fin.ofNat 8 (w.extractLsb 17 15).toNat

/-- A buffer select bit: 0 = BUF0, 1 = BUF1 (30_encoding.md R80). -/
def bufOfBit (bit : Bool) : BufSel := if bit then .buf1 else .buf0

/-- BA, bit 14 (30_encoding.md R80). -/
def baOf (w : Word32) : BufSel := bufOfBit (w.getLsbD 14)

/-- BB, bit 13 (30_encoding.md R80). -/
def bbOf (w : Word32) : BufSel := bufOfBit (w.getLsbD 13)

/-- The field masks of 30_encoding.md R84. -/
def maskRD : Word32 := 0x00E00000
/-- See `maskRD`. -/
def maskRS1 : Word32 := 0x001C0000
/-- See `maskRD`. -/
def maskRS2 : Word32 := 0x00038000
/-- See `maskRD`. -/
def maskBA : Word32 := 0x00004000
/-- See `maskRD`. -/
def maskBB : Word32 := 0x00002000

/-- Accept `i` as the meaning of `w` when every bit below OPC that is not in a used field is zero: the second
test of decode(w) (30_encoding.md R83). -/
def checkUnused (w used : Word32) (i : Instr) : Except DecodeError Instr :=
  if w &&& (0x00FFFFFF &&& ~~~used) = 0 then .ok i else .error .mustBeZero

/-- decode(w) (30_encoding.md R83), with the used fields of each opcode as R84 lists them. -/
def decode (w : Word32) : Except DecodeError Instr :=
  match opcOf w with
  | 0x00 => checkUnused w 0 .nop
  | 0x01 => checkUnused w (maskRD ||| maskRS1 ||| maskRS2) (.fadd (rdOf w) (rs1Of w) (rs2Of w))
  | 0x02 => checkUnused w (maskRD ||| maskRS1 ||| maskRS2) (.fsub (rdOf w) (rs1Of w) (rs2Of w))
  | 0x03 => checkUnused w (maskRD ||| maskRS1 ||| maskRS2) (.fmul (rdOf w) (rs1Of w) (rs2Of w))
  | 0x04 => checkUnused w (maskRD ||| maskRS1 ||| maskRS2) (.fdiv (rdOf w) (rs1Of w) (rs2Of w))
  | 0x05 => checkUnused w (maskRD ||| maskRS1) (.finv (rdOf w) (rs1Of w))
  | 0x06 => checkUnused w (maskRD ||| maskRS1 ||| maskRS2) (.fpow (rdOf w) (rs1Of w) (rs2Of w))
  | 0x07 => checkUnused w (maskRD ||| maskRS1 ||| maskRS2) (.feq (rdOf w) (rs1Of w) (rs2Of w))
  | 0x08 => checkUnused w (maskRD ||| maskRS1) (.fnew (rdOf w) (rs1Of w))
  | 0x09 => checkUnused w (maskRD ||| maskRS1 ||| maskBA) (.fld (rdOf w) (baOf w) (rs1Of w))
  | 0x0A => checkUnused w (maskRS1 ||| maskRS2 ||| maskBA) (.fst (rs2Of w) (baOf w) (rs1Of w))
  | 0x10 => checkUnused w (maskRS1 ||| maskBA) (.brev (baOf w) (rs1Of w))
  | 0x11 => checkUnused w (maskRS1 ||| maskBA) (.brperm (baOf w) (rs1Of w))
  | 0x12 => checkUnused w (maskRS1 ||| maskBA) (.nttf (baOf w) (rs1Of w))
  | 0x13 => checkUnused w (maskRS1 ||| maskBA) (.ntti (baOf w) (rs1Of w))
  | 0x14 => checkUnused w (maskRS1 ||| maskBA ||| maskBB) (.sqext (bbOf w) (baOf w) (rs1Of w))
  | 0x20 => checkUnused w 0 .clrerr
  | _ => .error .reservedOpcode

/-- A register number placed with its least significant bit at bit `lo`. -/
def regField (lo : Nat) (r : RegNum) : Word32 := BitVec.ofNat 32 r.val <<< lo

/-- A buffer select placed at bit `lo`. -/
def bufField (lo : Nat) (b : BufSel) : Word32 :=
  match b with
  | .buf0 => 0
  | .buf1 => 1 <<< lo

/-- OPC placed at bits 31:24. -/
def opcField (opc : Nat) : Word32 := BitVec.ofNat 32 opc <<< 24

/-- The word of a command: format C with the opcode and operand fields of 30_encoding.md R80, R82, R84. -/
def encode : Instr → Word32
  | .nop => opcField 0x00
  | .fadd fd fa fb => opcField 0x01 ||| regField 21 fd ||| regField 18 fa ||| regField 15 fb
  | .fsub fd fa fb => opcField 0x02 ||| regField 21 fd ||| regField 18 fa ||| regField 15 fb
  | .fmul fd fa fb => opcField 0x03 ||| regField 21 fd ||| regField 18 fa ||| regField 15 fb
  | .fdiv fd fa fb => opcField 0x04 ||| regField 21 fd ||| regField 18 fa ||| regField 15 fb
  | .finv fd fa => opcField 0x05 ||| regField 21 fd ||| regField 18 fa
  | .fpow fd fa xe => opcField 0x06 ||| regField 21 fd ||| regField 18 fa ||| regField 15 xe
  | .feq xd fa fb => opcField 0x07 ||| regField 21 xd ||| regField 18 fa ||| regField 15 fb
  | .fnew fd xs => opcField 0x08 ||| regField 21 fd ||| regField 18 xs
  | .fld fd b xi => opcField 0x09 ||| regField 21 fd ||| regField 18 xi ||| bufField 14 b
  | .fst fs b xi => opcField 0x0A ||| regField 18 xi ||| regField 15 fs ||| bufField 14 b
  | .brev b xn => opcField 0x10 ||| regField 18 xn ||| bufField 14 b
  | .brperm b xn => opcField 0x11 ||| regField 18 xn ||| bufField 14 b
  | .nttf b xn => opcField 0x12 ||| regField 18 xn ||| bufField 14 b
  | .ntti b xn => opcField 0x13 ||| regField 18 xn ||| bufField 14 b
  | .sqext t f xl => opcField 0x14 ||| regField 18 xl ||| bufField 14 f ||| bufField 13 t
  | .clrerr => opcField 0x20

/-- The mnemonic of a command, as spec/opcode_table.json spells it. -/
def mnemonicOf : Instr → String
  | .nop => "NOP"
  | .fadd .. => "FADD"
  | .fsub .. => "FSUB"
  | .fmul .. => "FMUL"
  | .fdiv .. => "FDIV"
  | .finv .. => "FINV"
  | .fpow .. => "FPOW"
  | .feq .. => "FEQ"
  | .fnew .. => "FNEW"
  | .fld .. => "FLD"
  | .fst .. => "FST"
  | .brev .. => "BREV"
  | .brperm .. => "BRPERM"
  | .nttf .. => "NTTF"
  | .ntti .. => "NTTI"
  | .sqext .. => "SQEXT"
  | .clrerr => "CLRERR"

/-- The word of a table row whose `nbits` low bits are those of `w`, every higher bit zero (log 12). -/
def tableWord (nbits w : Nat) : Word32 := BitVec.ofNat 32 (w % 2 ^ nbits)

/-- The instruction the decoder reads from a table row's word, numbered as spec/opcode_table.json numbers bits. -/
def decodeTableWord (nbits w : Nat) : Option Instr :=
  match decode (tableWord nbits w) with
  | .ok i => some i
  | .error _ => none

end Sys2Proof
end

