-- ==== Sys2Proof/Config.lean ====
section
/-! DEFINITION. What an implementation fixes: the parameter LOG2_NMAX (00_scope.md R11), and the primitive root,
which is the same in every implementation (00_scope.md R9). MFAU_BASE is a parameter no rule depends on, and the
model works in offsets (20_memory.md R50; log 6). -/

namespace Sys2Proof

/-- The implementation parameters. LOG2_NMAX is an integer with 0 ≤ LOG2_NMAX ≤ 23; no other value is a
configuration of the model (00_scope.md R11; 93_implementation_defined.md I1). -/
structure Config where
  log2Nmax : Fin 24
deriving DecidableEq, Repr

/-- NMAX = 2^LOG2_NMAX: the number of cells of a buffer and the maximum transform length (00_scope.md R11). -/
def Config.nmax (c : Config) : Nat := 2 ^ c.log2Nmax.val

/-- The primitive root G = 3 (00_scope.md R9). PRESUMED by the spec itself, which marks the number as general
knowledge and fixes it by its decision D2 (log 11). -/
def rootG : FieldElem := 3

end Sys2Proof
end

