-- ==== Sys2Proof/Machine/FieldOps.lean ====
section
/-! DEFINITION. The field operations of 40_field_arithmetic.md R100 and R111, computed on unbounded integers and
reduced once, so that no intermediate product overflows (R112). -/

namespace Sys2Proof

/-- v mod P of an unsigned integer (20_memory.md R56, R58). -/
def reduceNat (v : Nat) : FieldElem := ⟨v % P, Nat.mod_lt v (by decide)⟩

/-- v mod P, the Euclidean remainder in [0, P), of any integer (00_scope.md R14; 40_field_arithmetic.md R108). -/
def reduceInt (v : Int) : FieldElem := reduceNat (v % (P : Int)).toNat

/-- fadd(a, b) = (a + b) mod P (40_field_arithmetic.md R100). -/
def fadd (a b : FieldElem) : FieldElem := reduceNat (a.val + b.val)

/-- fsub(a, b) = (a - b) mod P, which is a - b + P when a < b (40_field_arithmetic.md R100). -/
def fsub (a b : FieldElem) : FieldElem := reduceNat (if a.val < b.val then a.val + P - b.val else a.val - b.val)

/-- fmul(a, b) = (a * b) mod P (40_field_arithmetic.md R100, R112). -/
def fmul (a b : FieldElem) : FieldElem := reduceNat (a.val * b.val)

/-- The recursion of 40_field_arithmetic.md R111, with a bound on its depth. -/
def fpowDepth : Nat → FieldElem → Nat → FieldElem
  | 0, a, _ => a
  | depth + 1, a, e =>
    if e = 1 then a
    else
      let h := fpowDepth depth a (e / 2)
      if e % 2 = 1 then fmul (fmul h h) a else fmul h h

/-- fpow(a, e) = a^e mod P for e ≥ 1 (40_field_arithmetic.md R100), by repeated squaring; the recursion of R111
descends floor(log2 e) times. The spec gives fpow no value at e = 0 and no command asks for one (log 13). -/
def fpow (a : FieldElem) (e : Nat) : FieldElem := fpowDepth e.log2 a e

/-- finv(a) = fpow(a, P - 2), for a ≠ 0 (40_field_arithmetic.md R100). -/
def finv (a : FieldElem) : FieldElem := fpow a (P - 2)

/-- fdiv(a, b) = fmul(a, finv(b)), for b ≠ 0 (40_field_arithmetic.md R100). -/
def fdiv (a b : FieldElem) : FieldElem := fmul a (finv b)

end Sys2Proof
end

