-- ==== Sys2Proof/Machine/State.lean ====
section
/-! DEFINITION. The state of the machine as plain data (10_state.md R20), the host accesses that drive it
(00_scope.md R4; 20_memory.md R52, R53), the errors, the reasons a step can stop, and the state after reset
(70_reset_and_hazards.md R230). -/

namespace Sys2Proof.Machine

/-- One input of the machine: a host access of one 32-bit word (20_memory.md R52, R53), or the platform's reset
(70_reset_and_hazards.md R230). Offsets are byte offsets from MFAU_BASE (20_memory.md R50). -/
inductive HostInput where
  /-- MemRead(a, 4). -/
  | read (a : Word32)
  /-- MemWrite(a, 4, v). -/
  | write (a v : Word32)
  /-- The platform asserts reset. -/
  | reset
deriving DecidableEq, Repr

/-- What a mapped, aligned offset of the host port names (20_memory.md R50). -/
inductive PortLoc where
  | id
  | status
  | errinfo
  | config
  | prime
  | root
  | cmd
  /-- F[i], at 0x100 + 4·i. -/
  | freg (i : RegNum)
  /-- X[i] bits 31:0, at 0x200 + 8·i. -/
  | xlo (i : RegNum)
  /-- X[i] bits 63:32, at 0x204 + 8·i. -/
  | xhi (i : RegNum)
  /-- BUF[b][k], at 0x0200_0000·(b + 1) + 4·k, k < NMAX. -/
  | cell (b : BufSel) (k : Nat)
deriving DecidableEq, Repr

/-- The architectural errors (60_exceptions.md R200). They are values of STATUS.ERR and do not stop the machine. -/
inductive ErrorKind where
  | divisionByZero
  | invalidTransformLength
  | illegalCommand
  | invalidExponent
  | indexOutOfRange
  | hostAccess
deriving DecidableEq, Repr

/-- The contents of one coefficient buffer: its written cells as (index, element) pairs, indices strictly rising.
An index that is not listed is an Unwritten cell, which holds no value (10_state.md R24, R40; log 4). -/
abbrev Memory := List (Nat × FieldElem)

/-- The state: the tuple of 10_state.md R20, the configuration it is built with (00_scope.md R11; log 1), and the
host's side of the port (logs 2 and 3). -/
structure State where
  /-- The implementation parameters; no step changes them. -/
  cfg : Config
  /-- F0..F7 (10_state.md R21). -/
  f : Vector FieldElem 8
  /-- X0..X7 (10_state.md R23). -/
  x : Vector Word64 8
  /-- BUF0 (10_state.md R24). -/
  buf0 : Memory
  /-- BUF1 (10_state.md R24). -/
  buf1 : Memory
  /-- STATUS.ERR, the error latch (10_state.md R29). -/
  err : BitVec 4
  /-- ERRINFO (10_state.md R33). -/
  errinfo : Word32
  /-- The host accesses still to be served, oldest first. -/
  pending : List HostInput
  /-- The words host reads have returned, newest first. -/
  replies : List Word32
deriving DecidableEq, Repr

/-- The reasons the machine stops. -/
inductive Fault where
  /-- UninitRead: a read of a buffer cell still Unwritten since reset, raised by FLD, BRPERM, NTTF, NTTI and SQEXT
  and by a host read through a buffer window (10_state.md R40; 60_exceptions.md R201). Safe: the hardware goes on
  with an unspecified value, and the spec orders a model to stop (log 5). -/
  | uninitRead
deriving DecidableEq, Repr

/-- The reasons the model gives an instruction no meaning. -/
inductive Refusal where
  /-- The instruction has no meaning in this model yet; raised by an arm of `exec` only, and by none at present.
  Safe: no next state is claimed. -/
  | notModelled (mnemonic : String)
deriving DecidableEq, Repr

/-- The answer of one step. -/
abbrev Result := Host.Outcome State Fault Refusal

/-- The unit right after reset, built with the configuration `c`: F, X, ERR and ERRINFO are 0 and every buffer
cell is Unwritten (10_state.md R38, R39, R40, R41; 70_reset_and_hazards.md R230), no access pending and none
answered (logs 2 and 3). -/
def State.resetWith (c : Config) : State :=
  { cfg := c
    f := Vector.replicate 8 0
    x := Vector.replicate 8 0
    buf0 := []
    buf1 := []
    err := 0
    errinfo := 0
    pending := []
    replies := [] }

/-- DESIGN CHOICE (log 1): the one configuration the host's interface asks for is LOG2_NMAX = 5, the value
95_test_vectors.md uses. The spec gives no number, and the machine takes it from the state: `State.resetWith c` is
the state after reset for every configuration. -/
def State.reset : State := State.resetWith ⟨5⟩

end Sys2Proof.Machine
end

