-- ==== Sys2Proof/Machine/Flags.lean ====
section
/-! DEFINITION. The one status of the machine: it has no condition codes or flags (10_state.md R35), only
STATUS.ERR. Here stand the error codes, the words STATUS and CONFIG read as, and the word FEQ writes in place of a
flag. -/

namespace Sys2Proof.Machine

/-- The code of an error in STATUS.ERR (60_exceptions.md R200). -/
def errorCode : ErrorKind → BitVec 4
  | .divisionByZero => 1
  | .invalidTransformLength => 2
  | .illegalCommand => 3
  | .invalidExponent => 4
  | .indexOutOfRange => 5
  | .hostAccess => 6

/-- STATUS: ERR in bits 3:0, bits 31:4 read 0 (10_state.md R29). -/
def statusWord (err : BitVec 4) : Word32 := err.setWidth 32

/-- CONFIG: LOG2_NMAX in bits 4:0, bits 31:5 read 0 (10_state.md R30). -/
def configWord (c : Config) : Word32 := BitVec.ofNat 32 c.log2Nmax.val

/-- The 64-bit result of a comparison: 1 when it holds, 0 when not (40_field_arithmetic.md R107). -/
def comparisonWord (holds : Bool) : Word64 := if holds then 1 else 0

end Sys2Proof.Machine
end

