-- ==== Sys2Proof/Machine/Ops.lean ====
section
/-! DEFINITION. The named operations over registers and buffers, and raising an error (60_exceptions.md R203) with
its return, the clearing of the latch (R207; 44_control.md R182). -/

namespace Sys2Proof.Machine

/-- The element at an index of a buffer, or none where the cell is Unwritten (10_state.md R24). -/
def Memory.read (m : Memory) (k : Nat) : Option FieldElem :=
  match m with
  | [] => none
  | (j, u) :: rest => if k = j then some u else Memory.read rest k

/-- Make the cell at an index hold `v`, in the canonical form (10_state.md R40). -/
def Memory.write (m : Memory) (k : Nat) (v : FieldElem) : Memory :=
  match m with
  | [] => [(k, v)]
  | (j, u) :: rest =>
    if k < j then (k, v) :: (j, u) :: rest
    else if k = j then (k, v) :: rest
    else (j, u) :: Memory.write rest k v

/-- The elements of the cells [start, start + n), or none when one of them is Unwritten. -/
def Memory.readRange (m : Memory) (start : Nat) : Nat → Option (List FieldElem)
  | 0 => some []
  | n + 1 =>
    match m.read start, Memory.readRange m (start + 1) n with
    | some v, some vs => some (v :: vs)
    | _, _ => none

/-- Write the elements to the cells from `start` upward, one after the other. -/
def Memory.writeRange (m : Memory) (start : Nat) : List FieldElem → Memory
  | [] => m
  | v :: vs => Memory.writeRange (m.write start v) (start + 1) vs

/-- The canonical form: indices strictly rising, so that equal contents are equal lists. -/
abbrev Memory.wf (m : Memory) : Prop := m.Pairwise fun p q => p.1 < q.1

/-- Every listed index is a cell of a buffer of NMAX cells (10_state.md R24). -/
abbrev Memory.within (m : Memory) (nmax : Nat) : Prop := ∀ p ∈ m, p.1 < nmax

/-- NMAX of this machine (00_scope.md R11). -/
def State.nmax (s : State) : Nat := s.cfg.nmax

/-- F[r] (00_scope.md R15). -/
def State.readF (s : State) (r : RegNum) : FieldElem := s.f.get r

/-- F[r] <- v (00_scope.md R15). -/
def State.writeF (s : State) (r : RegNum) (v : FieldElem) : State := { s with f := s.f.set r.val v r.isLt }

/-- X[r] (00_scope.md R15). -/
def State.readX (s : State) (r : RegNum) : Word64 := s.x.get r

/-- X[r] <- v (00_scope.md R15). -/
def State.writeX (s : State) (r : RegNum) (v : Word64) : State := { s with x := s.x.set r.val v r.isLt }

/-- BUF[b] (10_state.md R24). -/
def State.buffer (s : State) (b : BufSel) : Memory :=
  match b with
  | .buf0 => s.buf0
  | .buf1 => s.buf1

/-- BUF[b] <- m, the whole buffer. -/
def State.setBuffer (s : State) (b : BufSel) (m : Memory) : State :=
  match b with
  | .buf0 => { s with buf0 := m }
  | .buf1 => { s with buf1 := m }

/-- BUF[b][k], none where the cell is Unwritten (00_scope.md R15; 10_state.md R40). -/
def State.readCell (s : State) (b : BufSel) (k : Nat) : Option FieldElem := (s.buffer b).read k

/-- BUF[b][k] <- v (00_scope.md R15). -/
def State.writeCell (s : State) (b : BufSel) (k : Nat) (v : FieldElem) : State :=
  s.setBuffer b ((s.buffer b).write k v)

/-- BUF[b][0..n), none when one of the cells is Unwritten (93_implementation_defined.md I3). -/
def State.readCells (s : State) (b : BufSel) (n : Nat) : Option (List FieldElem) := (s.buffer b).readRange 0 n

/-- Write the elements to BUF[b] from index 0 upward. -/
def State.writeCells (s : State) (b : BufSel) (vs : List FieldElem) : State :=
  s.setBuffer b ((s.buffer b).writeRange 0 vs)

/-- Hand the host the word a read returns (20_memory.md R52; log 3). -/
def State.reply (s : State) (v : Word32) : State := { s with replies := v :: s.replies }

/-- raise E(info): the first error since the last clear is kept, and nothing else is written
(60_exceptions.md R203). -/
def State.raiseError (s : State) (e : ErrorKind) (info : Word32) : State :=
  if s.err = 0 then { s with err := errorCode e, errinfo := info } else s

/-- The return from an error: ERR <- 0, ERRINFO <- 0 (60_exceptions.md R207; 44_control.md R182). -/
def State.clearError (s : State) : State := { s with err := 0, errinfo := 0 }

/-- A command stops with error E: ERRINFO is its own word w (60_exceptions.md R200, R203), which is `encode i`
because decoding loses no bit (log 7). -/
def commandError (e : ErrorKind) (i : Instr) (s : State) : Result := .next (s.raiseError e (encode i))

/-- The platform's reset: every piece of architectural state takes its reset value, and the constants keep theirs
(70_reset_and_hazards.md R230). The host's side of the port is no state of the unit and stays (log 8). -/
def State.resetUnit (s : State) : State :=
  { State.resetWith s.cfg with pending := s.pending, replies := s.replies }

end Sys2Proof.Machine
end

