-- ==== Sys2Proof/Machine/Control.lean ====
section
/-! DEFINITION. The control commands NOP and CLRERR (44_control.md R180, R182). The unit has no control transfer
(R185). -/

namespace Sys2Proof.Machine

/-- NOP: nothing (44_control.md R180). -/
def execNop (s : State) : Result := .next s

/-- CLRERR: ERR <- 0, ERRINFO <- 0 (44_control.md R182). -/
def execClrerr (s : State) : Result := .next s.clearError

end Sys2Proof.Machine
end

