-- ==== Sys2Proof/Machine/Operands.lean ====
section
/-! DEFINITION. The operand forms: the integer an X register is read as, and the checks a command makes on it
before its first write (60_exceptions.md R202, R205). -/

namespace Sys2Proof.Machine

/-- s64(X[r]): the contents of an integer register as a two's-complement integer (00_scope.md R13; 10_state.md R23). -/
def State.readS64 (s : State) (r : RegNum) : Int := (s.readX r).toInt

/-- ispow2(n): n = 2^k for some k ≥ 0 (00_scope.md R14). -/
def isPow2 (n : Nat) : Bool := 2 ^ n.log2 == n

/-- nextpow2(m): the least 2^k with 2^k ≥ m, which is 1 for every m ≤ 1 (00_scope.md R14). -/
def nextPow2 (m : Int) : Nat := if m ≤ 1 then 1 else 2 ^ ((m - 1).toNat.log2 + 1)

/-- valid_n(n) (41_bit_reversal.md R143). -/
def validLength (nmax : Nat) (n : Int) : Bool := decide (1 ≤ n) && isPow2 n.toNat && decide (n ≤ (nmax : Int))

/-- The index check of FLD and FST: 0 ≤ i < NMAX (40_field_arithmetic.md R109, R110). -/
def validIndex (nmax : Nat) (i : Int) : Bool := decide (0 ≤ i) && decide (i < (nmax : Int))

/-- sq_len(flen) = nextpow2(2·flen - 1) (43_square_extend.md R170). -/
def sqLength (flen : Int) : Nat := nextPow2 (2 * flen - 1)

/-- The check of SQEXT: fl ≥ 0 and sq_len(fl) ≤ NMAX (43_square_extend.md R171). -/
def validSquareLength (nmax : Nat) (flen : Int) : Bool := decide (0 ≤ flen) && decide (sqLength flen ≤ nmax)

end Sys2Proof.Machine
end

