-- ==== Sys2Proof/Machine/FieldArithmetic.lean ====
section
/-! DEFINITION. The field arithmetic commands (FAU): FADD, FSUB, FMUL, FDIV, FINV, FPOW, FEQ, FNEW, FLD and FST
(40_field_arithmetic.md R101 to R110). Each reads its sources before its one write (00_scope.md R16). -/

namespace Sys2Proof.Machine

/-- FADD: F[rd] <- fadd(F[rs1], F[rs2]) (40_field_arithmetic.md R101). -/
def execFadd (fd fa fb : RegNum) (s : State) : Result := .next (s.writeF fd (fadd (s.readF fa) (s.readF fb)))

/-- FSUB: F[rd] <- fsub(F[rs1], F[rs2]) (40_field_arithmetic.md R102). -/
def execFsub (fd fa fb : RegNum) (s : State) : Result := .next (s.writeF fd (fsub (s.readF fa) (s.readF fb)))

/-- FMUL: F[rd] <- fmul(F[rs1], F[rs2]) (40_field_arithmetic.md R103). -/
def execFmul (fd fa fb : RegNum) (s : State) : Result := .next (s.writeF fd (fmul (s.readF fa) (s.readF fb)))

/-- FDIV: DIVISION_BY_ZERO when the divisor is 0, else F[rd] <- fdiv(F[rs1], F[rs2]) (40_field_arithmetic.md R104). -/
def execFdiv (fd fa fb : RegNum) (s : State) : Result :=
  if s.readF fb = 0 then commandError .divisionByZero (.fdiv fd fa fb) s
  else .next (s.writeF fd (fdiv (s.readF fa) (s.readF fb)))

/-- FINV: DIVISION_BY_ZERO when F[rs1] is 0, else F[rd] <- finv(F[rs1]) (40_field_arithmetic.md R105). -/
def execFinv (fd fa : RegNum) (s : State) : Result :=
  if s.readF fa = 0 then commandError .divisionByZero (.finv fd fa) s
  else .next (s.writeF fd (finv (s.readF fa)))

/-- FPOW: INVALID_EXPONENT when e = s64(X[rs2]) < 1, else F[rd] <- fpow(F[rs1], e) (40_field_arithmetic.md R106). -/
def execFpow (fd fa xe : RegNum) (s : State) : Result :=
  if s.readS64 xe < 1 then commandError .invalidExponent (.fpow fd fa xe) s
  else .next (s.writeF fd (fpow (s.readF fa) (s.readS64 xe).toNat))

/-- FEQ: X[rd] <- 1 when F[rs1] = F[rs2], else 0 (40_field_arithmetic.md R107). -/
def execFeq (xd fa fb : RegNum) (s : State) : Result :=
  .next (s.writeX xd (comparisonWord (s.readF fa == s.readF fb)))

/-- FNEW: F[rd] <- s64(X[rs1]) mod P (40_field_arithmetic.md R108). -/
def execFnew (fd xs : RegNum) (s : State) : Result := .next (s.writeF fd (reduceInt (s.readS64 xs)))

/-- FLD: INDEX_OUT_OF_RANGE when i = s64(X[rs1]) is outside [0, NMAX), else F[rd] <- BUF[ba][i]; an Unwritten cell
is the model fault UninitRead (40_field_arithmetic.md R109). -/
def execFld (fd : RegNum) (b : BufSel) (xi : RegNum) (s : State) : Result :=
  if validIndex s.nmax (s.readS64 xi) then
    match s.readCell b (s.readS64 xi).toNat with
    | some v => .next (s.writeF fd v)
    | none => .fault .uninitRead
  else commandError .indexOutOfRange (.fld fd b xi) s

/-- FST: INDEX_OUT_OF_RANGE when i = s64(X[rs1]) is outside [0, NMAX), else BUF[ba][i] <- F[rs2]
(40_field_arithmetic.md R110). -/
def execFst (fs : RegNum) (b : BufSel) (xi : RegNum) (s : State) : Result :=
  if validIndex s.nmax (s.readS64 xi) then .next (s.writeCell b (s.readS64 xi).toNat (s.readF fs))
  else commandError .indexOutOfRange (.fst fs b xi) s

end Sys2Proof.Machine
end

