-- ==== Sys2Proof/Machine/BitReversal.lean ====
section
/-! DEFINITION. The bit-reversal permutation unit (BRU): the function rev_n, the reorder step, BREV and BRPERM
(41_bit_reversal.md R140 to R143). No table is held: rev_n is computed where a rule names it (10_state.md R37). -/

namespace Sys2Proof.Machine

/-- The recursion of 41_bit_reversal.md R140 for the length 2^bits, with a bound on its depth: the shift
`(i & 1) << (L - 1)` puts bit 0 of i at the top, under it the reversal of i >> 1, shifted right once. -/
def revDepth (bits : Nat) : Nat → Nat → Nat
  | 0, _ => 0
  | depth + 1, i => (revDepth bits depth (i >>> 1) >>> 1) ||| ((i &&& 1) <<< (bits - 1))

/-- rev_n(i) for the length n = 2^bits and i < n (41_bit_reversal.md R140); i has at most `bits` bits, which bounds
the recursion. -/
def bitRev (bits i : Nat) : Nat := revDepth bits bits i

/-- The bit-reversal table rev_n(0), …, rev_n(n - 1) of a power of two n (41_bit_reversal.md R140). -/
def revTable (n : Nat) : List Nat := (List.range n).map (bitRev n.log2)

/-- The element at an index of the cells a command works on; no rule reads outside them. -/
def elemAt (a : List FieldElem) (i : Nat) : FieldElem := a.getD i 0

/-- Exchange two elements. -/
def swapElems (a : List FieldElem) (i j : Nat) : List FieldElem := (a.set i (elemAt a j)).set j (elemAt a i)

/-- reorder(b, n) on the elements of BUF[b][0..n): for i in 0 .. n-1, if i < rev_n(i), exchange i and rev_n(i)
(41_bit_reversal.md R142). -/
def reorder (n : Nat) (a : List FieldElem) : List FieldElem :=
  (List.range n).foldl (fun a i => if i < bitRev n.log2 i then swapElems a i (bitRev n.log2 i) else a) a

/-- A command that replaces BUF[b][0..n) by a function of its elements, n = s64(X[xn]): the length check
(41_bit_reversal.md R143), then the model fault UninitRead before any write (93_implementation_defined.md I3),
then the writes. -/
def inPlaceCommand (i : Instr) (b : BufSel) (xn : RegNum) (g : Nat → List FieldElem → List FieldElem)
    (s : State) : Result :=
  if validLength s.nmax (s.readS64 xn) then
    match s.readCells b (s.readS64 xn).toNat with
    | some a => .next (s.writeCells b (g (s.readS64 xn).toNat a))
    | none => .fault .uninitRead
  else commandError .invalidTransformLength i s

/-- BREV: BUF[ba][i] <- rev_n(i) for i < n (41_bit_reversal.md R141). -/
def execBrev (b : BufSel) (xn : RegNum) (s : State) : Result :=
  if validLength s.nmax (s.readS64 xn) then .next (s.writeCells b ((revTable (s.readS64 xn).toNat).map reduceNat))
  else commandError .invalidTransformLength (.brev b xn) s

/-- BRPERM: reorder(ba, n) (41_bit_reversal.md R142). -/
def execBrperm (b : BufSel) (xn : RegNum) (s : State) : Result := inPlaceCommand (.brperm b xn) b xn reorder s

end Sys2Proof.Machine
end

