-- ==== Sys2Proof/Machine/Ntt.lean ====
section
/-! DEFINITION. The NTT butterfly engine (NTE): the butterfly, the procedure ntt_core, NTTF and NTTI
(42_ntt.md R150 to R155). The procedure works on the elements of BUF[b][0..n), in the order R152 gives. -/

namespace Sys2Proof.Machine

/-- butterfly(t0, u, w): the new values at i+k and at i+j+k (42_ntt.md R151). -/
def butterfly (t0 u w : FieldElem) : FieldElem × FieldElem := (fadd t0 (fmul w u), fsub t0 (fmul w u))

/-- Write the butterfly of the elements at two indices back to them (42_ntt.md R152). -/
def butterflyAt (a : List FieldElem) (lo hi : Nat) (w : FieldElem) : List FieldElem :=
  (a.set lo (butterfly (elemAt a lo) (elemAt a hi) w).1).set hi (butterfly (elemAt a lo) (elemAt a hi) w).2

/-- One block of size 2j at index i: for k in 0 .. j-1 the butterfly at i+k and i+j+k with twiddle w, where w is
1 at k = 0 and is multiplied by w1 after each (42_ntt.md R152). -/
def blockPass (j : Nat) (w1 : FieldElem) (i : Nat) (a : List FieldElem) : List FieldElem :=
  ((List.range j).foldl (fun (st : List FieldElem × FieldElem) k =>
    (butterflyAt st.1 (i + k) (i + j + k) st.2, fmul st.2 w1)) (a, 1)).1

/-- One stage of width j: the blocks at i = 0, 2j, 4j, …, n - 2j (42_ntt.md R152). -/
def stagePass (n j : Nat) (w1 : FieldElem) (a : List FieldElem) : List FieldElem :=
  (List.range (n / (2 * j))).foldl (fun a block => blockPass j w1 (block * (2 * j)) a) a

/-- w1 of the stage of width j: G^((P-1)/(2j)), to the power P - 2 for the inverse transform (42_ntt.md R152, R153). -/
def stageRoot (inv : Bool) (j : Nat) : FieldElem :=
  if inv then fpow (fpow rootG ((P - 1) / (2 * j))) (P - 2) else fpow rootG ((P - 1) / (2 * j))

/-- All stages, of widths j = 1, 2, 4, …, n/2 (42_ntt.md R152). -/
def allStages (inv : Bool) (n : Nat) (a : List FieldElem) : List FieldElem :=
  (List.range n.log2).foldl (fun a t => stagePass n (2 ^ t) (stageRoot inv (2 ^ t)) a) a

/-- ntt_core(b, n, inv) on the elements of BUF[b][0..n): reorder, the stages, and for the inverse the product of
every element with finv(n) (42_ntt.md R152). -/
def nttCore (inv : Bool) (n : Nat) (a : List FieldElem) : List FieldElem :=
  if inv then (allStages inv n (reorder n a)).map fun v => fmul v (finv (reduceNat n))
  else allStages inv n (reorder n a)

/-- NTTF: ntt_core(ba, n, false) (42_ntt.md R154). -/
def execNttf (b : BufSel) (xn : RegNum) (s : State) : Result := inPlaceCommand (.nttf b xn) b xn (nttCore false) s

/-- NTTI: ntt_core(ba, n, true) (42_ntt.md R155). -/
def execNtti (b : BufSel) (xn : RegNum) (s : State) : Result := inPlaceCommand (.ntti b xn) b xn (nttCore true) s

end Sys2Proof.Machine
end

