-- ==== Sys2Proof/Machine/SquareExtend.lean ====
section
/-! DEFINITION. The modular polynomial squarer (MPS): SQEXT (43_square_extend.md R170 to R175). -/

namespace Sys2Proof.Machine

/-- What SQEXT leaves in BUF[f][0..n), from the elements `a` of BUF[f][0..fl): the forward transform of `a`
zero-filled to length n (43_square_extend.md R171, R173). -/
def squareSpectrum (n : Nat) (a : List FieldElem) : List FieldElem :=
  nttCore false n (a ++ List.replicate (n - a.length) 0)

/-- What SQEXT leaves in BUF[t][0..NMAX): the inverse transform of the squared spectrum, and zeros from n upward
(43_square_extend.md R171, R174). -/
def squareResult (nmax n : Nat) (a : List FieldElem) : List FieldElem :=
  nttCore true n ((squareSpectrum n a).map fun v => fmul v v) ++ List.replicate (nmax - n) 0

/-- SQEXT with fl = s64(X[rs1]), f = ba, t = bb: INVALID_TRANSFORM_LENGTH when fl < 0 or sq_len(fl) > NMAX; UninitRead
when a cell of BUF[f][0..fl) is Unwritten; then BUF[f][0..n) and after it the whole of BUF[t] are written, so
that t = f keeps the second (43_square_extend.md R171, R175). -/
def execSqext (t f : BufSel) (xl : RegNum) (s : State) : Result :=
  if validSquareLength s.nmax (s.readS64 xl) then
    match s.readCells f (s.readS64 xl).toNat with
    | some a =>
      .next ((s.writeCells f (squareSpectrum (sqLength (s.readS64 xl)) a)).writeCells t
        (squareResult s.nmax (sqLength (s.readS64 xl)) a))
    | none => .fault .uninitRead
  else commandError .invalidTransformLength (.sqext t f xl) s

end Sys2Proof.Machine
end

