-- ==== Sys2Proof/Machine/Dispatch.lean ====
section
/-! DEFINITION. One command executed by its rule, once it has been decoded (60_exceptions.md R204). -/

namespace Sys2Proof.Machine

def exec (i : Instr) (s : State) : Host.Outcome State Fault Refusal :=
  match i with
  | .nop => Sys2Proof.Machine.execNop s
  | .fadd fd fa fb => Sys2Proof.Machine.execFadd fd fa fb s
  | .fsub fd fa fb => Sys2Proof.Machine.execFsub fd fa fb s
  | .fmul fd fa fb => Sys2Proof.Machine.execFmul fd fa fb s
  | .fdiv fd fa fb => Sys2Proof.Machine.execFdiv fd fa fb s
  | .finv fd fa => Sys2Proof.Machine.execFinv fd fa s
  | .fpow fd fa xe => Sys2Proof.Machine.execFpow fd fa xe s
  | .feq xd fa fb => Sys2Proof.Machine.execFeq xd fa fb s
  | .fnew fd xs => Sys2Proof.Machine.execFnew fd xs s
  | .fld fd b xi => Sys2Proof.Machine.execFld fd b xi s
  | .fst fs b xi => Sys2Proof.Machine.execFst fs b xi s
  | .brev b xn => Sys2Proof.Machine.execBrev b xn s
  | .brperm b xn => Sys2Proof.Machine.execBrperm b xn s
  | .nttf b xn => Sys2Proof.Machine.execNttf b xn s
  | .ntti b xn => Sys2Proof.Machine.execNtti b xn s
  | .sqext t f xl => Sys2Proof.Machine.execSqext t f xl s
  | .clrerr => Sys2Proof.Machine.execClrerr s

end Sys2Proof.Machine
end

