-- ==== Sys2Proof/Machine/Port.lean ====
section
/-! DEFINITION. The host port: the address map (20_memory.md R50), host reads and writes (R52 to R58), issuing a
command (60_exceptions.md R204), and serving the next access. -/

namespace Sys2Proof.Machine

/-- The words of the four constant registers and the offset of CMD (10_state.md R27, R28, R31, R32). -/
def idWord : Word32 := 0x4D464155
/-- PRIME reads P (10_state.md R31). -/
def primeWord : Word32 := BitVec.ofNat 32 P
/-- ROOT reads G (10_state.md R32). -/
def rootWord : Word32 := BitVec.ofNat 32 rootG.val
/-- The offset of CMD (20_memory.md R50). -/
def cmdOffset : Word32 := 0x020
/-- The one word that is CLRERR (44_control.md R182; 60_exceptions.md R204). -/
def clrerrWord : Word32 := 0x20000000

/-- The registers below 0x100 (20_memory.md R50). -/
def controlLoc (a : Nat) : Option PortLoc :=
  match a with
  | 0x000 => some .id
  | 0x004 => some .status
  | 0x008 => some .errinfo
  | 0x00C => some .config
  | 0x010 => some .prime
  | 0x014 => some .root
  | 0x020 => some .cmd
  | _ => none

/-- The base offset of a buffer window: 0x0200_0000·(b + 1) (20_memory.md R50, R58). -/
def windowBase : BufSel → Nat
  | .buf0 => 0x02000000
  | .buf1 => 0x04000000

/-- The cell an aligned offset names in a buffer's window, which is mapped below NMAX cells only (20_memory.md R50). -/
def windowLoc (nmax a : Nat) (b : BufSel) : Option PortLoc :=
  if windowBase b ≤ a ∧ a < windowBase b + 4 * nmax then some (.cell b ((a - windowBase b) / 4)) else none

/-- What an offset names; none where it is misaligned (20_memory.md R54) or unmapped (R50). -/
def portLoc (nmax : Nat) (offset : Word32) : Option PortLoc :=
  let a := offset.toNat
  if a % 4 ≠ 0 then none
  else if a < 0x100 then controlLoc a
  else if a < 0x120 then some (.freg (Fin.ofNat 8 ((a - 0x100) / 4)))
  else if a < 0x200 then none
  else if a < 0x240 then
    some (if a % 8 = 0 then .xlo (Fin.ofNat 8 ((a - 0x200) / 8)) else .xhi (Fin.ofNat 8 ((a - 0x200) / 8)))
  else (windowLoc nmax a .buf0).or (windowLoc nmax a .buf1)

/-- zext_32 of a field element (20_memory.md R56, R58). -/
def fieldWord (v : FieldElem) : Word32 := BitVec.ofNat 32 v.val

/-- X with its low half replaced (20_memory.md R57). -/
def withLowHalf (x : Word64) (v : Word32) : Word64 := x.extractLsb 63 32 ++ v

/-- X with its high half replaced (20_memory.md R57). -/
def withHighHalf (x : Word64) (v : Word32) : Word64 := v ++ x.extractLsb 31 0

/-- host_access_error(a): HOST_ACCESS with info a (20_memory.md R55). -/
def State.hostAccessError (s : State) (a : Word32) : State := s.raiseError .hostAccess a

/-- MemRead(a, 4): the word goes to the host; a misaligned or unmapped offset and CMD are host access errors, which
return 0 (20_memory.md R52); an Unwritten cell is the model fault UninitRead (R58). -/
def hostRead (a : Word32) (s : State) : Result :=
  match portLoc s.nmax a with
  | some .id => .next (s.reply idWord)
  | some .status => .next (s.reply (statusWord s.err))
  | some .errinfo => .next (s.reply s.errinfo)
  | some .config => .next (s.reply (configWord s.cfg))
  | some .prime => .next (s.reply primeWord)
  | some .root => .next (s.reply rootWord)
  | some (.freg i) => .next (s.reply (fieldWord (s.readF i)))
  | some (.xlo i) => .next (s.reply ((s.readX i).extractLsb 31 0))
  | some (.xhi i) => .next (s.reply ((s.readX i).extractLsb 63 32))
  | some (.cell b k) =>
    match s.readCell b k with
    | some v => .next (s.reply (fieldWord v))
    | none => .fault .uninitRead
  | some .cmd => .next ((s.hostAccessError a).reply 0)
  | none => .next ((s.hostAccessError a).reply 0)

/-- issue_command(w): while ERR is nonzero every word but CLRERR is discarded; else an ILLEGAL word raises
ILLEGAL_COMMAND(w), and any other is executed by its rule (60_exceptions.md R204). -/
def issueCommand (w : Word32) (s : State) : Result :=
  if s.err ≠ 0 then
    if w = clrerrWord then .next s.clearError else .next s
  else
    match decode w with
    | .ok i => exec i s
    | .error _ => .next (s.raiseError .illegalCommand w)

/-- MemWrite(a, 4, v): a write to CMD issues a command; F and buffer cells take v mod P; a half of X is replaced;
every other offset is a host access error and nothing else is written (20_memory.md R53, R56, R57, R58). -/
def hostWrite (a v : Word32) (s : State) : Result :=
  match portLoc s.nmax a with
  | some .cmd => issueCommand v s
  | some (.freg i) => .next (s.writeF i (reduceNat v.toNat))
  | some (.xlo i) => .next (s.writeX i (withLowHalf (s.readX i) v))
  | some (.xhi i) => .next (s.writeX i (withHighHalf (s.readX i) v))
  | some (.cell b k) => .next (s.writeCell b k (reduceNat v.toNat))
  | some .id => .next (s.hostAccessError a)
  | some .status => .next (s.hostAccessError a)
  | some .errinfo => .next (s.hostAccessError a)
  | some .config => .next (s.hostAccessError a)
  | some .prime => .next (s.hostAccessError a)
  | some .root => .next (s.hostAccessError a)
  | none => .next (s.hostAccessError a)

/-- One input, served to completion (00_scope.md R4; 20_memory.md R64). -/
def serve (e : HostInput) (s : State) : Result :=
  match e with
  | .read a => hostRead a s
  | .write a v => hostWrite a v s
  | .reset => .next s.resetUnit

/-- Serve the oldest pending access; with none the unit is idle (70_reset_and_hazards.md R231; log 9). -/
def serveNext (s : State) : Result :=
  match s.pending with
  | [] => .next s
  | e :: rest => serve e { s with pending := rest }

/-- Put a command write before every pending access: the next access the host makes is the write of `w` to CMD. -/
def State.pushCommand (s : State) (w : Word32) : State := { s with pending := .write cmdOffset w :: s.pending }

end Sys2Proof.Machine
end

