-- ==== Sys2Proof/Machine/Step.lean ====
section
/-! DEFINITION. One step: one host access, served to completion (00_scope.md R4; 70_reset_and_hazards.md R237). -/

namespace Sys2Proof.Machine

/-- One step of the machine. -/
def step (s : State) : Host.Outcome State Fault Refusal := serveNext s

/-- The machine fetches nothing: its instruction stream is the host's writes to CMD (10_state.md R36). Its next
instruction is the word of the next CMD write, so this makes that write the next access (log 2). -/
def State.withFetchWord (s : State) (nbits w : Nat) : State := s.pushCommand (tableWord nbits w)

end Sys2Proof.Machine
end

