-- ==== Sys2Proof/Safety.lean ====
section
/-! DEFINITION. The vocabulary of the claims: the invariant of the machine, what a command or an access may leave
changed, the state an error leaves, what a command needs to run, and the mathematical values its results are
compared with. Nothing here is used by the machine. -/

namespace Sys2Proof.Machine

/-- The invariant: each buffer is in canonical form and lists cells below NMAX only (10_state.md R24), STATUS.ERR
is one of the codes 0 to 6 (10_state.md R29), and ERRINFO is 0 while no error is latched (60_exceptions.md R207). -/
structure State.Inv (s : State) : Prop where
  wf : ∀ b, (s.buffer b).wf
  within : ∀ b, (s.buffer b).within s.nmax
  errLegal : s.err.toNat ≤ 6
  errinfoClear : s.err = 0 → s.errinfo = 0

/-- Every field register is the same. -/
def SameF (s t : State) : Prop := ∀ r, t.readF r = s.readF r

/-- Every integer register is the same. -/
def SameX (s t : State) : Prop := ∀ r, t.readX r = s.readX r

/-- Every cell of both buffers reads as before. -/
def SameCells (s t : State) : Prop := ∀ b k, t.readCell b k = s.readCell b k

/-- The error latch is the same. -/
def SameStatus (s t : State) : Prop := t.err = s.err ∧ t.errinfo = s.errinfo

/-- The configuration and the host's side of the port are the same. -/
def SamePort (s t : State) : Prop := t.cfg = s.cfg ∧ t.pending = s.pending ∧ t.replies = s.replies

/-- Nothing but field register `fd` may have changed. -/
def OnlyF (fd : RegNum) (s t : State) : Prop :=
  (∀ r, r ≠ fd → t.readF r = s.readF r) ∧ SameX s t ∧ SameCells s t ∧ SameStatus s t ∧ SamePort s t

/-- Nothing but integer register `xd` may have changed. -/
def OnlyX (xd : RegNum) (s t : State) : Prop :=
  SameF s t ∧ (∀ r, r ≠ xd → t.readX r = s.readX r) ∧ SameCells s t ∧ SameStatus s t ∧ SamePort s t

/-- Nothing but the named buffer cells may have changed. -/
def OnlyCells (named : BufSel → Nat → Prop) (s t : State) : Prop :=
  SameF s t ∧ SameX s t ∧ (∀ b k, ¬ named b k → t.readCell b k = s.readCell b k) ∧ SameStatus s t ∧ SamePort s t

/-- Nothing but the error latch may have changed. -/
def OnlyStatus (s t : State) : Prop := SameF s t ∧ SameX s t ∧ SameCells s t ∧ SamePort s t

/-- The state an error with this code and info leaves: the first error is kept, and nothing but ERR and ERRINFO is
written (60_exceptions.md R203). -/
def latched (code : BitVec 4) (info : Word32) (s : State) : State :=
  if s.err = 0 then { s with err := code, errinfo := info } else s

/-- A word of format C, from the values of its fields (30_encoding.md R80). -/
def formatC (opc rd rs1 rs2 ba bb rsv : Nat) : Word32 :=
  BitVec.ofNat 32 (opc * 2 ^ 24 + rd * 2 ^ 21 + rs1 * 2 ^ 18 + rs2 * 2 ^ 15 + ba * 2 ^ 14 + bb * 2 ^ 13 + rsv)

/-- The number of a buffer: 0 selects BUF0, 1 selects BUF1 (10_state.md R24). -/
def bufNumber : BufSel → Nat
  | .buf0 => 0
  | .buf1 => 1

/-- The cells a command reads once its operand check has passed are all written: the duty of
70_reset_and_hazards.md R232, step 2. -/
def InputsWritten : Instr → State → Prop
  | .fld _ b xi, s => validIndex s.nmax (s.readS64 xi) → s.readCell b (s.readS64 xi).toNat ≠ none
  | .brperm b xn, s => validLength s.nmax (s.readS64 xn) → ∀ k < (s.readS64 xn).toNat, s.readCell b k ≠ none
  | .nttf b xn, s => validLength s.nmax (s.readS64 xn) → ∀ k < (s.readS64 xn).toNat, s.readCell b k ≠ none
  | .ntti b xn, s => validLength s.nmax (s.readS64 xn) → ∀ k < (s.readS64 xn).toNat, s.readCell b k ≠ none
  | .sqext _ f xl, s => validSquareLength s.nmax (s.readS64 xl) → ∀ k < (s.readS64 xl).toNat, s.readCell f k ≠ none
  | .nop, _ | .fadd .., _ | .fsub .., _ | .fmul .., _ | .fdiv .., _ | .finv .., _ | .fpow .., _ | .feq .., _
  | .fnew .., _ | .fst .., _ | .brev .., _ | .clrerr, _ => True

/-- The field register a command writes, where it writes one (10_state.md R21). -/
def destF : Instr → Option RegNum
  | .fadd fd _ _ | .fsub fd _ _ | .fmul fd _ _ | .fdiv fd _ _ | .finv fd _ | .fpow fd _ _ | .fnew fd _
  | .fld fd _ _ => some fd
  | .nop | .feq .. | .fst .. | .brev .. | .brperm .. | .nttf .. | .ntti .. | .sqext .. | .clrerr => none

/-- The integer register a command writes: FEQ writes X[rd], no other command writes one (10_state.md R23). -/
def destX : Instr → Option RegNum
  | .feq xd _ _ => some xd
  | .nop | .fadd .. | .fsub .. | .fmul .. | .fdiv .. | .finv .. | .fpow .. | .fnew .. | .fld .. | .fst .. | .brev ..
  | .brperm .. | .nttf .. | .ntti .. | .sqext .. | .clrerr => none

/-- The buffer cells a command may write (10_state.md R26). -/
def MayWriteCell (i : Instr) (s : State) (b' : BufSel) (k : Nat) : Prop :=
  match i with
  | .fst _ b xi => b' = b ∧ (k : Int) = s.readS64 xi
  | .brev b xn | .brperm b xn | .nttf b xn | .ntti b xn => b' = b ∧ (k : Int) < s.readS64 xn
  | .sqext t f xl => (b' = f ∧ k < sqLength (s.readS64 xl)) ∨ (b' = t ∧ k < s.nmax)
  | .nop | .fadd .. | .fsub .. | .fmul .. | .fdiv .. | .finv .. | .fpow .. | .feq .. | .fnew .. | .fld ..
  | .clrerr => False

/-- The offsets a host read answers with a register or a cell (20_memory.md R50, R52). -/
def Readable (nmax a : Nat) : Prop :=
  a = 0x000 ∨ a = 0x004 ∨ a = 0x008 ∨ a = 0x00C ∨ a = 0x010 ∨ a = 0x014 ∨
    (∃ i < 8, a = 0x100 + 4 * i ∨ a = 0x200 + 8 * i ∨ a = 0x204 + 8 * i) ∨
    ∃ k < nmax, a = 0x02000000 + 4 * k ∨ a = 0x04000000 + 4 * k

/-- The offsets a host write reaches a register, a cell or CMD through (20_memory.md R50, R53). -/
def Writable (nmax a : Nat) : Prop :=
  a = 0x020 ∨ (∃ i < 8, a = 0x100 + 4 * i ∨ a = 0x200 + 8 * i ∨ a = 0x204 + 8 * i) ∨
    ∃ k < nmax, a = 0x02000000 + 4 * k ∨ a = 0x04000000 + 4 * k

/-- A word that is not a command: its opcode is reserved, or a bit that its opcode does not use is 1
(30_encoding.md R85). -/
def IllegalWord (w : Word32) : Prop :=
  (0x0B ≤ w.toNat / 2 ^ 24 ∧ w.toNat / 2 ^ 24 ≤ 0x0F) ∨ (0x15 ≤ w.toNat / 2 ^ 24 ∧ w.toNat / 2 ^ 24 ≤ 0x1F) ∨
    0x21 ≤ w.toNat / 2 ^ 24 ∨
    ∃ r ∈ opcodeTable, w &&& 0xFF000000 = r.matchWord ∧ w &&& r.mustZero ≠ 0

/-- A field element as an element of the ring of integers mod P. -/
def fieldValue (v : FieldElem) : ZMod P := (v.val : ZMod P)

/-- ω_n = G^((P-1)/n), the principal n-th root of unity, with G = 3 (42_ntt.md R153); ω_1 = 1. -/
def unityRoot (n : Nat) : ZMod P := 3 ^ ((P - 1) / n)

/-- The cells [0, n) of a buffer hold the elements `a 0, …, a (n-1)`. -/
def HoldsElems (s : State) (b : BufSel) (n : Nat) (a : Nat → FieldElem) : Prop :=
  ∀ k < n, s.readCell b k = some (a k)

/-- The command stops with UninitRead, and so does every run that begins with the host's write of its word to CMD on a
unit that is not blocked (60_exceptions.md R201, R204). -/
def StopsUninit (i : Instr) (s : State) : Prop :=
  exec i s = .fault .uninitRead ∧
    ∀ w rest, s.pending = .write 0x020 w :: rest → s.err = 0 → decode w = .ok i →
      step s = .fault .uninitRead ∧ ∀ n, Sys2Proof.core.run (n + 1) s = .fault .uninitRead

/-- A run is safe when no step of it faults or refuses: it reads no Unwritten cell (60_exceptions.md R201). -/
def SafeRun (k : Nat) (s : State) : Prop := ∃ t, Sys2Proof.core.run k s = .next t

end Sys2Proof.Machine
end

