-- ==== Sys2Proof/Certificates/Slice0/Obligations.lean ====
section
/-! DEFINITION. The statements for the provers, in the order of OBLIGATIONS.json. Each docstring names the rule of
spec/ it formalises. Every statement about a state holds for every LOG2_NMAX (log 1). -/

open Sys2Proof Sys2Proof.Machine

/-! ### Decoding -/

/-- The worked encodings of 30_encoding.md R88 decode to the commands they stand for. -/
def Obligations.WorkedEncodingsDecode : Prop :=
  decode 0x01408000 = .ok (.fadd 2 0 1) ∧ decode 0x04408000 = .ok (.fdiv 2 0 1) ∧
  decode 0x06678000 = .ok (.fpow 3 1 7) ∧ decode 0x14002000 = .ok (.sqext .buf1 .buf0 0) ∧
  decode 0x13084000 = .ok (.ntti .buf1 2)

/-- The decoder and the encoder are inverse to each other on all words and all commands (30_encoding.md R80, R82,
R83, R84): no bit of a command word is dropped, which is also what log 7 rests on. -/
def Obligations.DecodeAndEncodeAgree : Prop :=
  ∀ (w : Word32) (i : Instr), decode w = .ok i ↔ encode i = w

/-- A word decodes as the mnemonic m exactly when a row of the opcode map with that mnemonic has
(w AND mask) = match (30_encoding.md R83, R84). -/
def Obligations.DecodesByMaskAndMatch : Prop :=
  ∀ (w : Word32) (m : String),
    (∃ i, decode w = .ok i ∧ mnemonicOf i = m) ↔ ∃ r ∈ opcodeTable, r.mnemonic = m ∧ w &&& r.mask = r.matchWord

/-- Every reserved or illegal word written to CMD raises ILLEGAL_COMMAND with the word in ERRINFO and nothing else,
and is discarded while the unit is blocked (30_encoding.md R85). -/
def Obligations.IllegalWordsRaise : Prop :=
  ∀ (s : State) (w : Word32) (rest : List HostInput), s.pending = .write 0x020 w :: rest → IllegalWord w →
    (s.err = 0 → step s = .next { s with pending := rest, err := 3, errinfo := w }) ∧
    (s.err ≠ 0 → step s = .next { s with pending := rest })

/-- A write to CMD issues a command: a blocked unit runs CLRERR alone, an ILLEGAL word raises, and any other word is
executed by its rule (60_exceptions.md R204). This is how a step runs the decoded instruction. -/
def Obligations.CommandWriteIsIssued : Prop :=
  ∀ (s : State) (w : Word32) (rest : List HostInput), s.pending = .write 0x020 w :: rest →
    (s.err ≠ 0 → w = 0x20000000 → step s = .next { s with pending := rest, err := 0, errinfo := 0 }) ∧
    (s.err ≠ 0 → w ≠ 0x20000000 → step s = .next { s with pending := rest }) ∧
    (s.err = 0 → ∀ e, decode w = .error e → step s = .next { s with pending := rest, err := 3, errinfo := w }) ∧
    (s.err = 0 → ∀ i, decode w = .ok i → step s = exec i { s with pending := rest })

/-! ### Field arithmetic commands -/

/-- FADD, FSUB and FMUL: the sum, difference and product mod P of the old source values, in F[rd] alone
(40_field_arithmetic.md R101, R102, R103). -/
def Obligations.AddSubMulResults : Prop :=
  ∀ (s : State) (fd fa fb : RegNum),
    ((∀ w, decode w = .ok (.fadd fd fa fb) ↔ w = formatC 0x01 fd.val fa.val fb.val 0 0 0) ∧
      ∃ t, exec (.fadd fd fa fb) s = .next t ∧
        (t.readF fd).val = ((s.readF fa).val + (s.readF fb).val) % P ∧ OnlyF fd s t) ∧
    ((∀ w, decode w = .ok (.fsub fd fa fb) ↔ w = formatC 0x02 fd.val fa.val fb.val 0 0 0) ∧
      ∃ t, exec (.fsub fd fa fb) s = .next t ∧
        ((t.readF fd).val : Int) = (((s.readF fa).val : Int) - ((s.readF fb).val : Int)) % (P : Int) ∧ OnlyF fd s t) ∧
    ((∀ w, decode w = .ok (.fmul fd fa fb) ↔ w = formatC 0x03 fd.val fa.val fb.val 0 0 0) ∧
      ∃ t, exec (.fmul fd fa fb) s = .next t ∧
        (t.readF fd).val = ((s.readF fa).val * (s.readF fb).val) % P ∧ OnlyF fd s t)

/-- FDIV: DIVISION_BY_ZERO when the divisor is 0; else the product of the dividend and the divisor's power P - 2, in
F[rd] alone (40_field_arithmetic.md R104). -/
def Obligations.DivideResult : Prop :=
  ∀ (s : State) (fd fa fb : RegNum),
    (∀ w, decode w = .ok (.fdiv fd fa fb) ↔ w = formatC 0x04 fd.val fa.val fb.val 0 0 0) ∧
    (s.readF fb = 0 →
      exec (.fdiv fd fa fb) s = .next (latched 1 (formatC 0x04 fd.val fa.val fb.val 0 0 0) s)) ∧
    (s.readF fb ≠ 0 → ∃ t, exec (.fdiv fd fa fb) s = .next t ∧
      (t.readF fd).val = ((s.readF fa).val * (s.readF fb).val ^ (P - 2)) % P ∧ OnlyF fd s t)

/-- FINV: DIVISION_BY_ZERO when the source is 0; else its power P - 2, in F[rd] alone (40_field_arithmetic.md R105). -/
def Obligations.InverseResult : Prop :=
  ∀ (s : State) (fd fa : RegNum),
    (∀ w, decode w = .ok (.finv fd fa) ↔ w = formatC 0x05 fd.val fa.val 0 0 0 0) ∧
    (s.readF fa = 0 → exec (.finv fd fa) s = .next (latched 1 (formatC 0x05 fd.val fa.val 0 0 0 0) s)) ∧
    (s.readF fa ≠ 0 → ∃ t, exec (.finv fd fa) s = .next t ∧
      (t.readF fd).val = (s.readF fa).val ^ (P - 2) % P ∧ OnlyF fd s t)

/-- FPOW: INVALID_EXPONENT when the exponent is below 1; else the power, in F[rd] alone
(40_field_arithmetic.md R106). -/
def Obligations.PowerResult : Prop :=
  ∀ (s : State) (fd fa xe : RegNum),
    (∀ w, decode w = .ok (.fpow fd fa xe) ↔ w = formatC 0x06 fd.val fa.val xe.val 0 0 0) ∧
    (s.readS64 xe < 1 → exec (.fpow fd fa xe) s = .next (latched 4 (formatC 0x06 fd.val fa.val xe.val 0 0 0) s)) ∧
    (1 ≤ s.readS64 xe → ∃ t, exec (.fpow fd fa xe) s = .next t ∧
      (t.readF fd).val = (s.readF fa).val ^ (s.readS64 xe).toNat % P ∧ OnlyF fd s t)

/-- FINV gives the multiplicative inverse, and FDIV the unique quotient (40_field_arithmetic.md R113, marked derived
there; it rests on P being prime). -/
def Obligations.InverseAndQuotientLaws : Prop :=
  (∀ (s t : State) (fd fa : RegNum), s.readF fa ≠ 0 → exec (.finv fd fa) s = .next t →
    ((t.readF fd).val * (s.readF fa).val) % P = 1) ∧
  (∀ (s t : State) (fd fa fb : RegNum), s.readF fb ≠ 0 → exec (.fdiv fd fa fb) s = .next t →
    ∀ c : FieldElem, (c.val * (s.readF fb).val) % P = (s.readF fa).val ↔ c = t.readF fd)

/-- The corner cases of FPOW (40_field_arithmetic.md R106): exponent 1 gives the base; base 0 gives 0; a nonzero base
to the power P - 1 is 1, and to the power P - 2 is what FINV gives. -/
def Obligations.PowerCornerCases : Prop :=
  ∀ (s t : State) (fd fa xe : RegNum), exec (.fpow fd fa xe) s = .next t →
    (s.readS64 xe = 1 → t.readF fd = s.readF fa) ∧
    (1 ≤ s.readS64 xe → s.readF fa = 0 → t.readF fd = 0) ∧
    (s.readS64 xe = (P : Int) - 1 → s.readF fa ≠ 0 → t.readF fd = 1) ∧
    (s.readS64 xe = (P : Int) - 2 → s.readF fa ≠ 0 → ∀ u, exec (.finv fd fa) s = .next u → t.readF fd = u.readF fd)

/-- FEQ: all 64 bits of X[rd] become 1 or 0, and nothing else changes (40_field_arithmetic.md R107). -/
def Obligations.EqualityResult : Prop :=
  ∀ (s : State) (xd fa fb : RegNum),
    (∀ w, decode w = .ok (.feq xd fa fb) ↔ w = formatC 0x07 xd.val fa.val fb.val 0 0 0) ∧
    ∃ t, exec (.feq xd fa fb) s = .next t ∧
      t.readX xd = (if (s.readF fa).val = (s.readF fb).val then 0x0000000000000001 else 0x0000000000000000) ∧
      OnlyX xd s t

/-- FNEW: the Euclidean remainder of the signed integer, in F[rd] alone (40_field_arithmetic.md R108). -/
def Obligations.ConstructResult : Prop :=
  ∀ (s : State) (fd xs : RegNum),
    (∀ w, decode w = .ok (.fnew fd xs) ↔ w = formatC 0x08 fd.val xs.val 0 0 0 0) ∧
    ∃ t, exec (.fnew fd xs) s = .next t ∧ ((t.readF fd).val : Int) = s.readS64 xs % (P : Int) ∧ OnlyF fd s t

/-- FLD: INDEX_OUT_OF_RANGE outside [0, NMAX); else the element, in F[rd] alone; an Unwritten cell is the model fault
UninitRead (40_field_arithmetic.md R109). -/
def Obligations.LoadResult : Prop :=
  ∀ (s : State) (fd : RegNum) (b : BufSel) (xi : RegNum),
    (∀ w, decode w = .ok (.fld fd b xi) ↔ w = formatC 0x09 fd.val xi.val 0 (bufNumber b) 0 0) ∧
    (s.readS64 xi < 0 ∨ (s.nmax : Int) ≤ s.readS64 xi →
      exec (.fld fd b xi) s = .next (latched 5 (formatC 0x09 fd.val xi.val 0 (bufNumber b) 0 0) s)) ∧
    (0 ≤ s.readS64 xi → s.readS64 xi < (s.nmax : Int) →
      (∀ v, s.readCell b (s.readS64 xi).toNat = some v →
        ∃ t, exec (.fld fd b xi) s = .next t ∧ t.readF fd = v ∧ OnlyF fd s t) ∧
      (s.readCell b (s.readS64 xi).toNat = none → exec (.fld fd b xi) s = .fault .uninitRead))

/-- FST: INDEX_OUT_OF_RANGE outside [0, NMAX); else the register's value in the cell at the index, and nothing else
(40_field_arithmetic.md R110). -/
def Obligations.StoreResult : Prop :=
  ∀ (s : State) (fs : RegNum) (b : BufSel) (xi : RegNum),
    (∀ w, decode w = .ok (.fst fs b xi) ↔ w = formatC 0x0A 0 xi.val fs.val (bufNumber b) 0 0) ∧
    (s.readS64 xi < 0 ∨ (s.nmax : Int) ≤ s.readS64 xi →
      exec (.fst fs b xi) s = .next (latched 5 (formatC 0x0A 0 xi.val fs.val (bufNumber b) 0 0) s)) ∧
    (0 ≤ s.readS64 xi → s.readS64 xi < (s.nmax : Int) →
      ∃ t, exec (.fst fs b xi) s = .next t ∧ t.readCell b (s.readS64 xi).toNat = some (s.readF fs) ∧
        OnlyCells (fun b' k => b' = b ∧ k = (s.readS64 xi).toNat) s t)

/-! ### Control commands -/

/-- NOP is the word 0 alone and changes nothing; CLRERR is the word 0x20000000 alone and clears ERR and ERRINFO
alone; any other word of their opcodes is ILLEGAL; while the unit is blocked CLRERR is the only word that has an effect
(44_control.md R180, R182). -/
def Obligations.NopAndClrerrResults : Prop :=
  (∀ w, decode w = .ok .nop ↔ w = 0x00000000) ∧ (∀ w, decode w = .ok .clrerr ↔ w = 0x20000000) ∧
  (∀ w : Word32, w.toNat / 2 ^ 24 = 0x00 ∨ w.toNat / 2 ^ 24 = 0x20 → w ≠ 0x00000000 → w ≠ 0x20000000 →
    decode w = .error .mustBeZero) ∧
  (∀ s : State, exec .nop s = .next s ∧ exec .clrerr s = .next { s with err := 0, errinfo := 0 }) ∧
  ∀ (s : State) (w : Word32) (rest : List HostInput), s.pending = .write 0x020 w :: rest → s.err ≠ 0 →
    step s = .next (if w = 0x20000000 then { s with pending := rest, err := 0, errinfo := 0 }
      else { s with pending := rest })

/-! ### Bit reversal -/

/-- BREV: INVALID_TRANSFORM_LENGTH for a bad length; else the cells [0, n) hold the table of the recursion of R140, and
nothing else changes (41_bit_reversal.md R141). -/
def Obligations.BitReversalTable : Prop :=
  ∀ (s : State) (b : BufSel) (xn : RegNum),
    (∀ w, decode w = .ok (.brev b xn) ↔ w = formatC 0x10 0 xn.val 0 (bufNumber b) 0 0) ∧
    ((∀ L ≤ s.cfg.log2Nmax.val, s.readS64 xn ≠ 2 ^ L) →
      exec (.brev b xn) s = .next (latched 2 (formatC 0x10 0 xn.val 0 (bufNumber b) 0 0) s)) ∧
    (∀ L ≤ s.cfg.log2Nmax.val, s.readS64 xn = 2 ^ L →
      ∃ t, exec (.brev b xn) s = .next t ∧ t.readCell b 0 = some 0 ∧
        (∀ i, 1 ≤ i → i < 2 ^ L → ∃ u v, t.readCell b (i / 2) = some u ∧ t.readCell b i = some v ∧
          v.val = (u.val / 2) ||| ((i % 2) <<< (L - 1))) ∧
        OnlyCells (fun b' k => b' = b ∧ k < 2 ^ L) s t)

/-- BREV reverses the low log2(n) bits of each index (41_bit_reversal.md R140). -/
def Obligations.BrevReversesBits : Prop :=
  ∀ (s t : State) (b : BufSel) (xn : RegNum) (L : Nat), L ≤ s.cfg.log2Nmax.val → s.readS64 xn = 2 ^ L →
    exec (.brev b xn) s = .next t →
    ∀ k < 2 ^ L, ∃ v, t.readCell b k = some v ∧ v.val < 2 ^ L ∧ ∀ j < L, v.val.testBit j = k.testBit (L - 1 - j)

/-- rev_n is a permutation of [0, n) and its own inverse (41_bit_reversal.md R144, marked derived there). -/
def Obligations.BitReversalIsInvolution : Prop :=
  ∀ L i, i < 2 ^ L → bitRev L i < 2 ^ L ∧ bitRev L (bitRev L i) = i

/-- BRPERM: each cell below n receives the element at its reversed index, and nothing else changes
(41_bit_reversal.md R142, R144). -/
def Obligations.PermuteResult : Prop :=
  ∀ (s : State) (b : BufSel) (xn : RegNum),
    (∀ w, decode w = .ok (.brperm b xn) ↔ w = formatC 0x11 0 xn.val 0 (bufNumber b) 0 0) ∧
    ∀ L ≤ s.cfg.log2Nmax.val, s.readS64 xn = 2 ^ L → (∀ k < 2 ^ L, s.readCell b k ≠ none) →
      ∃ t, exec (.brperm b xn) s = .next t ∧ (∀ k < 2 ^ L, t.readCell b k = s.readCell b (bitRev L k)) ∧
        OnlyCells (fun b' k => b' = b ∧ k < 2 ^ L) s t

/-- BRPERM applied twice restores the whole state (41_bit_reversal.md R144). -/
def Obligations.PermuteTwiceIsIdentity : Prop :=
  ∀ (s : State) (b : BufSel) (xn : RegNum) (L : Nat), s.Inv → L ≤ s.cfg.log2Nmax.val → s.readS64 xn = 2 ^ L →
    (∀ k < 2 ^ L, s.readCell b k ≠ none) →
    ∃ t, exec (.brperm b xn) s = .next t ∧ exec (.brperm b xn) t = .next s

/-- A transform length is valid when it is 2^k with k ≤ LOG2_NMAX; BREV, BRPERM, NTTF and NTTI raise
INVALID_TRANSFORM_LENGTH on every other value and latch no error on a valid one (41_bit_reversal.md R143). -/
def Obligations.LengthCheckRule : Prop :=
  ∀ (s : State) (b : BufSel) (xn : RegNum),
    ((∀ k ≤ s.cfg.log2Nmax.val, s.readS64 xn ≠ 2 ^ k) →
      exec (.brev b xn) s = .next (latched 2 (formatC 0x10 0 xn.val 0 (bufNumber b) 0 0) s) ∧
      exec (.brperm b xn) s = .next (latched 2 (formatC 0x11 0 xn.val 0 (bufNumber b) 0 0) s) ∧
      exec (.nttf b xn) s = .next (latched 2 (formatC 0x12 0 xn.val 0 (bufNumber b) 0 0) s) ∧
      exec (.ntti b xn) s = .next (latched 2 (formatC 0x13 0 xn.val 0 (bufNumber b) 0 0) s)) ∧
    ((∃ k ≤ s.cfg.log2Nmax.val, s.readS64 xn = 2 ^ k) →
      ∀ i ∈ [Instr.brev b xn, .brperm b xn, .nttf b xn, .ntti b xn], ∀ t, exec i s = .next t → SameStatus s t)

/-! ### Transforms -/

/-- NTTF and NTTI read and write the cells [0, n) only: their results depend on those cells alone, and every other
cell, register and the error latch is unchanged; a length that is not valid_n changes no cell and latches an error
(42_ntt.md R150). -/
def Obligations.TransformsStayInTheirCells : Prop :=
  ∀ (s s' t t' : State) (b : BufSel) (xn : RegNum), ∀ i ∈ [Instr.nttf b xn, .ntti b xn],
    exec i s = .next t → exec i s' = .next t' →
    (∀ L ≤ s.cfg.log2Nmax.val, L ≤ s'.cfg.log2Nmax.val → s.readS64 xn = 2 ^ L → s'.readS64 xn = 2 ^ L →
      (∀ k < 2 ^ L, s'.readCell b k = s.readCell b k) →
      (∀ k < 2 ^ L, t'.readCell b k = t.readCell b k) ∧ OnlyCells (fun b' k => b' = b ∧ k < 2 ^ L) s t) ∧
    ((∀ L ≤ s.cfg.log2Nmax.val, s.readS64 xn ≠ 2 ^ L) → SameCells s t ∧ t.err ≠ 0)

/-- NTTF: cell k receives the sum of a[m] · ω_n^(m·k), exactly mod P, for every k below n
(42_ntt.md R154 with the closed form of R156, marked derived there);
ω_n = G^((P-1)/n) with G = 3, which the spec marks as general knowledge (log 11). -/
def Obligations.ForwardTransformValues : Prop :=
  ∀ (s : State) (b : BufSel) (xn : RegNum) (L : Nat) (a : Nat → FieldElem),
    L ≤ s.cfg.log2Nmax.val → s.readS64 xn = 2 ^ L → HoldsElems s b (2 ^ L) a →
    (∀ w, decode w = .ok (.nttf b xn) ↔ w = formatC 0x12 0 xn.val 0 (bufNumber b) 0 0) ∧
    ∃ t, exec (.nttf b xn) s = .next t ∧
      (∀ k < 2 ^ L, ∃ v, t.readCell b k = some v ∧
        fieldValue v = ∑ m ∈ Finset.range (2 ^ L), fieldValue (a m) * unityRoot (2 ^ L) ^ (m * k)) ∧
      OnlyCells (fun b' k => b' = b ∧ k < 2 ^ L) s t

/-- NTTI: cell k receives n^(-1) times the sum of a[m] · ω_n^(-(m·k)), exactly mod P, for every k below n
(42_ntt.md R155 with the closed form of R156, marked derived there);
ω_n = G^((P-1)/n) with G = 3, which the spec marks as general knowledge (log 11). -/
def Obligations.InverseTransformValues : Prop :=
  ∀ (s : State) (b : BufSel) (xn : RegNum) (L : Nat) (a : Nat → FieldElem),
    L ≤ s.cfg.log2Nmax.val → s.readS64 xn = 2 ^ L → HoldsElems s b (2 ^ L) a →
    (∀ w, decode w = .ok (.ntti b xn) ↔ w = formatC 0x13 0 xn.val 0 (bufNumber b) 0 0) ∧
    ∃ t, exec (.ntti b xn) s = .next t ∧
      (∀ k < 2 ^ L, ∃ v, t.readCell b k = some v ∧
        fieldValue v = ((2 ^ L : Nat) : ZMod P)⁻¹ *
          ∑ m ∈ Finset.range (2 ^ L), fieldValue (a m) * ((unityRoot (2 ^ L))⁻¹) ^ (m * k)) ∧
      OnlyCells (fun b' k => b' = b ∧ k < 2 ^ L) s t

/-- NTTF followed by NTTI, and NTTI followed by NTTF, with the same n restore the whole state exactly
(42_ntt.md R157). -/
def Obligations.TransformRoundTrip : Prop :=
  ∀ (s : State) (b : BufSel) (xn : RegNum) (L : Nat), s.Inv → L ≤ s.cfg.log2Nmax.val → s.readS64 xn = 2 ^ L →
    (∀ k < 2 ^ L, s.readCell b k ≠ none) →
    (∃ t, exec (.nttf b xn) s = .next t ∧ exec (.ntti b xn) t = .next s) ∧
    (∃ t, exec (.ntti b xn) s = .next t ∧ exec (.nttf b xn) t = .next s)

/-- The pointwise product of two forward transforms is, transformed back, the cyclic convolution of length n
(42_ntt.md R156; 70_reset_and_hazards.md R234). -/
def Obligations.PointwiseProductIsCyclicConvolution : Prop :=
  ∀ (L : Nat) (a c : List FieldElem), L ≤ 23 → a.length = 2 ^ L → c.length = 2 ^ L →
    ∀ k < 2 ^ L,
      fieldValue (elemAt (nttCore true (2 ^ L)
        (List.zipWith fmul (nttCore false (2 ^ L) a) (nttCore false (2 ^ L) c))) k) =
      ∑ i ∈ Finset.range (2 ^ L), fieldValue (elemAt a i) * fieldValue (elemAt c ((2 ^ L + k - i) % 2 ^ L))

/-- The values 42_ntt.md R153 lists, from the model's own fpow, finv and root G. -/
def Obligations.ReferenceRoots : Prop :=
  (fpow rootG ((P - 1) / 2)).val = 998244352 ∧ (fpow rootG ((P - 1) / 4)).val = 911660635 ∧
  (fpow rootG ((P - 1) / 8)).val = 372528824 ∧ (fpow rootG ((P - 1) / 2 ^ 23)).val = 15311432 ∧
  (finv 2).val = 499122177 ∧ (finv 4).val = 748683265 ∧ (finv 8).val = 873463809 ∧ (finv 16).val = 935854081

/-! ### Square-extend -/

/-- sq_len(flen) is the least power of two that is at least 2·flen - 1, with the values R170 lists, and SQEXT raises
INVALID_TRANSFORM_LENGTH when flen < 0 or that length exceeds NMAX (43_square_extend.md R170, R171). -/
def Obligations.SquareLengthRule : Prop :=
  (∀ fl : Int, (∃ k, sqLength fl = 2 ^ k) ∧ 2 * fl - 1 ≤ (sqLength fl : Int) ∧
    ∀ k : Nat, 2 * fl - 1 ≤ 2 ^ k → sqLength fl ≤ 2 ^ k) ∧
  (sqLength 0 = 1 ∧ sqLength 1 = 1 ∧ sqLength 2 = 4 ∧ sqLength 3 = 8 ∧ sqLength 5 = 16 ∧ sqLength 16 = 32 ∧
    sqLength 17 = 64) ∧
  (∀ (s : State) (t f : BufSel) (xl : RegNum), s.readS64 xl < 0 ∨ s.nmax < sqLength (s.readS64 xl) →
    exec (.sqext t f xl) s = .next (latched 2 (formatC 0x14 0 xl.val 0 (bufNumber f) (bufNumber t) 0) s))

/-- SQEXT: the whole to-buffer holds the exact square of the polynomial, coefficient by coefficient mod P, and 0 from
2·flen - 1 upward, whether or not the buffers are the same; only the cells R26 lists change
(43_square_extend.md R171, R172, R174, R175). -/
def Obligations.SquareExtendResult : Prop :=
  ∀ (s : State) (t f : BufSel) (xl : RegNum) (a : Nat → FieldElem), 0 ≤ s.readS64 xl →
    2 * s.readS64 xl - 1 ≤ (s.nmax : Int) → HoldsElems s f (s.readS64 xl).toNat a →
    (∀ w, decode w = .ok (.sqext t f xl) ↔ w = formatC 0x14 0 xl.val 0 (bufNumber f) (bufNumber t) 0) ∧
    ∃ u, exec (.sqext t f xl) s = .next u ∧
      (∀ k < s.nmax, ∃ v, u.readCell t k = some v ∧
        fieldValue v =
          if (k : Int) < 2 * s.readS64 xl - 1 then
            ∑ i ∈ (Finset.range (s.readS64 xl).toNat).filter fun i => i ≤ k ∧ k - i < (s.readS64 xl).toNat,
              fieldValue (a i) * fieldValue (a (k - i))
          else 0) ∧
      OnlyCells (fun b' k => (b' = f ∧ k < sqLength (s.readS64 xl)) ∨ (b' = t ∧ k < s.nmax)) s u

/-- SQEXT consumes its from-buffer: with another to-buffer, BUF[f][0..n) holds the forward transform of the
zero-padded coefficients, and BUF[f] from n upward is unchanged (43_square_extend.md R173, with the closed form of
42_ntt.md R156; G = 3, log 11). -/
def Obligations.SquareExtendConsumesSource : Prop :=
  ∀ (s : State) (t f : BufSel) (xl : RegNum) (a : Nat → FieldElem), t ≠ f → 0 ≤ s.readS64 xl →
    2 * s.readS64 xl - 1 ≤ (s.nmax : Int) → HoldsElems s f (s.readS64 xl).toNat a →
    ∃ u, exec (.sqext t f xl) s = .next u ∧
      (∀ k < sqLength (s.readS64 xl), ∃ v, u.readCell f k = some v ∧
        fieldValue v = ∑ m ∈ Finset.range (s.readS64 xl).toNat,
          fieldValue (a m) * unityRoot (sqLength (s.readS64 xl)) ^ (m * k)) ∧
      (∀ k, sqLength (s.readS64 xl) ≤ k → u.readCell f k = s.readCell f k)

/-! ### Errors, faults and completion -/

/-- A read of an Unwritten cell, by a command whose operand check passed or by the host, stops with the fault
UninitRead and no value, and the fault stays for the rest of the run: of a run that issues the command by a write to CMD
on a unit that is not blocked, and of one that begins with the host's read (60_exceptions.md R201). -/
def Obligations.UninitReadStops : Prop :=
  ∀ (s : State) (b : BufSel) (k : Nat), s.readCell b k = none →
    (∀ fd xi, s.readS64 xi = (k : Int) → k < s.nmax → StopsUninit (.fld fd b xi) s) ∧
    (∀ xn, ∀ L ≤ s.cfg.log2Nmax.val, s.readS64 xn = 2 ^ L → k < 2 ^ L →
      StopsUninit (.brperm b xn) s ∧ StopsUninit (.nttf b xn) s ∧ StopsUninit (.ntti b xn) s) ∧
    (∀ t xl, (k : Int) < s.readS64 xl → 2 * s.readS64 xl - 1 ≤ (s.nmax : Int) → StopsUninit (.sqext t b xl) s) ∧
    (∀ a rest, k < s.nmax → a.toNat = 0x02000000 * (bufNumber b + 1) + 4 * k → s.pending = .read a :: rest →
      step s = .fault .uninitRead ∧ ∀ n, Sys2Proof.core.run (n + 1) s = .fault .uninitRead)

/-- Every command completes when the cells it reads are written, and otherwise stops with UninitRead; none is ever
refused (70_reset_and_hazards.md R237, R232; 93_implementation_defined.md I3). -/
def Obligations.EveryCommandCompletes : Prop :=
  ∀ (i : Instr) (s : State),
    (InputsWritten i s → ∃ t, exec i s = .next t) ∧ (¬ InputsWritten i s → exec i s = .fault .uninitRead)

/-- Errors are precise: a command that changes the error latch, other than CLRERR, found it clear, leaves its own word
in ERRINFO, and changes nothing else (60_exceptions.md R205, marked derived there). -/
def Obligations.ErrorsArePrecise : Prop :=
  ∀ (i : Instr) (s t : State), exec i s = .next t → i ≠ .clrerr → ¬ SameStatus s t →
    s.err = 0 ∧ t.err ≠ 0 ∧ t.errinfo = encode i ∧ OnlyStatus s t

/-- Which command can raise which error code, and on which operands (60_exceptions.md R200): FDIV and FINV on a zero
divisor, the four commands with a length on one that is not 2^L with L ≤ LOG2_NMAX, SQEXT on flen < 0 or
sq_len(flen) > NMAX, FPOW on an exponent below 1, FLD and FST on an index outside [0, NMAX). -/
def Obligations.ErrorCodesByCommand : Prop :=
  ∀ (i : Instr) (s t : State), s.err = 0 → exec i s = .next t → t.err ≠ 0 →
    (t.err = 1 ∧ ((∃ fd fa fb, i = .fdiv fd fa fb ∧ s.readF fb = 0) ∨ ∃ fd fa, i = .finv fd fa ∧ s.readF fa = 0)) ∨
    (t.err = 2 ∧ ∃ b xn, (i = .brev b xn ∨ i = .brperm b xn ∨ i = .nttf b xn ∨ i = .ntti b xn) ∧
      ∀ L ≤ s.cfg.log2Nmax.val, s.readS64 xn ≠ 2 ^ L) ∨
    (t.err = 2 ∧ ∃ tb f xl, i = .sqext tb f xl ∧ (s.readS64 xl < 0 ∨ s.nmax < sqLength (s.readS64 xl))) ∨
    (t.err = 4 ∧ ∃ fd fa xe, i = .fpow fd fa xe ∧ s.readS64 xe < 1) ∨
    (t.err = 5 ∧ ∃ b xi, ((∃ fd, i = .fld fd b xi) ∨ ∃ fs, i = .fst fs b xi) ∧
      (s.readS64 xi < 0 ∨ (s.nmax : Int) ≤ s.readS64 xi))

/-- The frame of every command: only its destination register, the cells listed for it and the error latch may change
(10_state.md R21, R23, R26). -/
def Obligations.CommandFrame : Prop :=
  ∀ (i : Instr) (s t : State), exec i s = .next t →
    (∀ r, destF i ≠ some r → t.readF r = s.readF r) ∧ (∀ r, destX i ≠ some r → t.readX r = s.readX r) ∧
    (∀ b k, ¬ MayWriteCell i s b k → t.readCell b k = s.readCell b k) ∧ SamePort s t

/-! ### The host port -/

/-- ID, CONFIG, PRIME and ROOT read as their constants, and a write to one of them or to STATUS or ERRINFO latches
HOST_ACCESS and changes nothing else (10_state.md R28, R30, R31, R32). -/
def Obligations.ConstantRegisters : Prop :=
  (∀ (s : State) (rest : List HostInput) (a c : Word32), s.pending = .read a :: rest →
    (a, c) ∈ [((0x000 : Word32), (0x4D464155 : Word32)), (0x00C, BitVec.ofNat 32 s.cfg.log2Nmax.val),
      (0x010, 0x3B800001), (0x014, 0x00000003)] →
    step s = .next { s with pending := rest, replies := c :: s.replies }) ∧
  (∀ (s : State) (rest : List HostInput) (a v : Word32), s.pending = .write a v :: rest →
    a ∈ [(0x000 : Word32), 0x004, 0x008, 0x00C, 0x010, 0x014] →
    step s = .next (latched 6 a { s with pending := rest }))

/-- STATUS reads ERR in bits 3:0 and zeros above, and ERRINFO reads its 32 bits (10_state.md R29, R33). -/
def Obligations.StatusRegistersRead : Prop :=
  ∀ (s : State) (rest : List HostInput) (a : Word32), s.pending = .read a :: rest →
    (a = 0x004 → ∃ v : Word32, v.toNat = s.err.toNat ∧
      step s = .next { s with pending := rest, replies := v :: s.replies }) ∧
    (a = 0x008 → step s = .next { s with pending := rest, replies := s.errinfo :: s.replies })

/-- Host access to a field register: a read returns its value zero-extended, a write stores the word mod P in it alone
(20_memory.md R56). -/
def Obligations.HostFieldAccess : Prop :=
  ∀ (s : State) (rest : List HostInput) (r : RegNum) (a : Word32), a.toNat = 0x100 + 4 * r.val →
    (s.pending = .read a :: rest → ∃ v : Word32, v.toNat = (s.readF r).val ∧
      step s = .next { s with pending := rest, replies := v :: s.replies }) ∧
    (∀ v, s.pending = .write a v :: rest → ∃ t, step s = .next t ∧ (t.readF r).val = v.toNat % P ∧
      OnlyF r { s with pending := rest } t)

/-- Host access to an integer register, by halves: a read returns the half, a write replaces it and keeps the other
(20_memory.md R57). -/
def Obligations.HostIntegerAccess : Prop :=
  ∀ (s : State) (rest : List HostInput) (r : RegNum) (a : Word32),
    (a.toNat = 0x200 + 8 * r.val →
      (s.pending = .read a :: rest → ∃ v : Word32, v.toNat = (s.readX r).toNat % 2 ^ 32 ∧
        step s = .next { s with pending := rest, replies := v :: s.replies }) ∧
      (∀ v, s.pending = .write a v :: rest → ∃ t, step s = .next t ∧
        (t.readX r).toNat = (s.readX r).toNat / 2 ^ 32 * 2 ^ 32 + v.toNat ∧ OnlyX r { s with pending := rest } t)) ∧
    (a.toNat = 0x204 + 8 * r.val →
      (s.pending = .read a :: rest → ∃ v : Word32, v.toNat = (s.readX r).toNat / 2 ^ 32 ∧
        step s = .next { s with pending := rest, replies := v :: s.replies }) ∧
      (∀ v, s.pending = .write a v :: rest → ∃ t, step s = .next t ∧
        (t.readX r).toNat = v.toNat * 2 ^ 32 + (s.readX r).toNat % 2 ^ 32 ∧ OnlyX r { s with pending := rest } t))

/-- Host access to a buffer element: a read returns its value zero-extended, or stops with UninitRead on an Unwritten
cell; a write stores the word mod P in that cell alone (20_memory.md R58). -/
def Obligations.HostCellAccess : Prop :=
  ∀ (s : State) (rest : List HostInput) (b : BufSel) (k : Nat) (a : Word32), k < s.nmax →
    a.toNat = 0x02000000 * (bufNumber b + 1) + 4 * k →
    (s.pending = .read a :: rest →
      (∀ u, s.readCell b k = some u → ∃ v : Word32, v.toNat = u.val ∧
        step s = .next { s with pending := rest, replies := v :: s.replies }) ∧
      (s.readCell b k = none → step s = .fault .uninitRead)) ∧
    (∀ v, s.pending = .write a v :: rest → ∃ t u, step s = .next t ∧ t.readCell b k = some u ∧ u.val = v.toNat % P ∧
      OnlyCells (fun b' k' => b' = b ∧ k' = k) { s with pending := rest } t)

/-- A misaligned or unmapped offset, a write to a read-only register and a read of CMD are host access errors: a read
returns 0, HOST_ACCESS is latched with the offset unless an error is latched already, and nothing else changes. Every
other access is performed in the same way whatever error is latched (20_memory.md R54, R55). -/
def Obligations.BadHostAccessesLatch : Prop :=
  ∀ (s : State) (rest : List HostInput) (a : Word32),
    (s.pending = .read a :: rest → ¬ Readable s.nmax a.toNat →
      step s = .next { latched 6 a { s with pending := rest } with replies := 0 :: s.replies }) ∧
    (∀ v, s.pending = .write a v :: rest → ¬ Writable s.nmax a.toNat →
      step s = .next (latched 6 a { s with pending := rest })) ∧
    (∀ t code info, s.pending = .read a :: rest → Readable s.nmax a.toNat → a ≠ 0x004 → a ≠ 0x008 → step s = .next t →
      step { s with err := code, errinfo := info } = .next { t with err := code, errinfo := info }) ∧
    (∀ v code info, s.pending = .write a v :: rest → Writable s.nmax a.toNat → a ≠ 0x020 →
      ∃ t, step s = .next t ∧
        step { s with err := code, errinfo := info } = .next { t with err := code, errinfo := info })

/-- No read has a side effect except that a faulting one latches HOST_ACCESS, and every write but one to CMD is
idempotent (20_memory.md R61). -/
def Obligations.HostAccessSideEffects : Prop :=
  (∀ (s t : State) (rest : List HostInput) (a : Word32), s.pending = .read a :: rest → step s = .next t →
    SameF s t ∧ SameX s t ∧ SameCells s t ∧ (Readable s.nmax a.toNat → SameStatus s t)) ∧
  (∀ (s t u : State) (rest : List HostInput) (a v : Word32), a ≠ 0x020 →
    s.pending = .write a v :: .write a v :: rest → step s = .next t → step t = .next u →
    u = { t with pending := rest })

/-- A read returns what the most recent write to the same location left there: v mod P from a field register or a
buffer cell, v from a half of an integer register (20_memory.md R64). -/
def Obligations.ReadReturnsLastWrite : Prop :=
  ∀ (s : State) (rest : List HostInput) (a v : Word32), a ≠ 0x020 → Writable s.nmax a.toNat →
    s.pending = .write a v :: .read a :: rest →
    ∃ t u c, step s = .next t ∧ step t = .next u ∧ u.replies = c :: s.replies ∧ u.pending = rest ∧
      (0x200 ≤ a.toNat ∧ a.toNat < 0x240 → c = v) ∧
      (¬ (0x200 ≤ a.toNat ∧ a.toNat < 0x240) → c.toNat = v.toNat % P)

/-! ### Reset, steps and invariants -/

/-- The state after reset, for every configuration: F, X, ERR and ERRINFO are 0 and every buffer cell is Unwritten
(10_state.md R38, R39, R41; 70_reset_and_hazards.md R230). `State.reset` is one of these states. -/
def Obligations.ResetState : Prop :=
  (∀ c : Config, (∀ r, (State.resetWith c).readF r = 0) ∧ (∀ r, (State.resetWith c).readX r = 0x0000000000000000) ∧
    (∀ b k, (State.resetWith c).readCell b k = none) ∧ (State.resetWith c).err = 0 ∧
    (State.resetWith c).errinfo = 0 ∧ (State.resetWith c).cfg = c) ∧
  ∃ c, State.reset = State.resetWith c

/-- Reset, asserted at any time, gives every piece of architectural state its reset value and keeps the
configuration, so that the constant registers keep theirs (70_reset_and_hazards.md R230). -/
def Obligations.ResetRestoresState : Prop :=
  ∀ (s : State) (rest : List HostInput), s.pending = .reset :: rest →
    ∃ t, step s = .next t ∧ (∀ r, t.readF r = 0) ∧ (∀ r, t.readX r = 0) ∧ (∀ b k, t.readCell b k = none) ∧
      t.err = 0 ∧ t.errinfo = 0 ∧ t.cfg = s.cfg

/-- The invariant holds right after reset, for every configuration (10_state.md R40, R41; 60_exceptions.md R207). -/
def Obligations.ResetMeetsInvariant : Prop :=
  (∀ c, (State.resetWith c).Inv) ∧ State.reset.Inv

/-- Every step keeps the invariant: canonical buffers within NMAX, a legal error code, and ERRINFO 0 while no error is
latched (10_state.md R24, R29; 60_exceptions.md R207; 93_implementation_defined.md I7). -/
def Obligations.StepKeepsInvariant : Prop :=
  ∀ s t : State, s.Inv → step s = .next t → t.Inv

/-- The error latch is sticky: it is changed while an error is latched only by the word CLRERR or by reset, and
ERRINFO changes only when an error is latched or cleared (10_state.md R29, R33). -/
def Obligations.ErrorLatchIsSticky : Prop :=
  ∀ s t : State, step s = .next t →
    (s.err ≠ 0 → s.pending.head? ≠ some .reset → s.pending.head? ≠ some (.write 0x020 0x20000000) →
      SameStatus s t) ∧
    (t.errinfo ≠ s.errinfo → (s.err = 0 ∧ t.err ≠ 0) ∨ (t.err = 0 ∧ t.errinfo = 0))

/-- A step serves exactly the oldest pending access, returns at most one word, and never changes the configuration
(00_scope.md R4, R11). That accesses wait in a list of the state is the model's choice (logs 2 and 3). -/
def Obligations.StepServesOneAccess : Prop :=
  ∀ s t : State, step s = .next t →
    t.cfg = s.cfg ∧ t.pending = s.pending.tail ∧ (t.replies = s.replies ∨ ∃ v, t.replies = v :: s.replies)

/-- With no access pending the unit is idle: a step changes nothing. This is the model's reading of
70_reset_and_hazards.md R231 (log 9). -/
def Obligations.IdleStepChangesNothing : Prop :=
  ∀ s : State, s.pending = [] → step s = .next s

/-- No step but a reset returns a cell to Unwritten (10_state.md R40). -/
def Obligations.WrittenCellsStayWritten : Prop :=
  ∀ (s t : State) (b : BufSel) (k : Nat), step s = .next t → s.pending.head? ≠ some .reset →
    s.readCell b k ≠ none → t.readCell b k ≠ none

/-- A machine whose buffers are fully written and that is not reset runs safely through every sequence of host
accesses, of any length: no fault and no refusal (70_reset_and_hazards.md R232, R237; 60_exceptions.md R201). -/
def Obligations.FullBuffersRunSafely : Prop :=
  ∀ (s : State) (n : Nat), (∀ b, ∀ k < s.nmax, s.readCell b k ≠ none) → .reset ∉ s.pending → SafeRun n s
end

