-- ==== Sys2Proof/Laws/Memory.lean ====
section
/-! SUPPORT. The laws of a buffer's memory: read after write, what a write leaves alone, the canonical form and the
range are kept, and equal contents are equal lists. -/

namespace Sys2Proof.Machine

@[simp] theorem Memory.read_nil (k : Nat) : Memory.read [] k = none := rfl

theorem Memory.read_cons (j : Nat) (u : FieldElem) (m : Memory) (k : Nat) :
    Memory.read ((j, u) :: m) k = if k = j then some u else Memory.read m k := rfl

theorem Memory.write_cons (j : Nat) (u : FieldElem) (m : Memory) (k : Nat) (v : FieldElem) :
    Memory.write ((j, u) :: m) k v =
      if k < j then (k, v) :: (j, u) :: m else if k = j then (k, v) :: m else (j, u) :: Memory.write m k v := rfl

@[simp] theorem Memory.read_write_same (m : Memory) (k : Nat) (v : FieldElem) : (m.write k v).read k = some v := by
  induction m with
  | nil => simp [Memory.write, Memory.read]
  | cons p m ih =>
    obtain ⟨j, u⟩ := p
    rw [Memory.write_cons]
    split
    · simp [Memory.read_cons]
    · split
      · simp [Memory.read_cons]
      · rw [Memory.read_cons, if_neg ‹_›, ih]

theorem Memory.read_write_other (m : Memory) {k k' : Nat} (v : FieldElem) (h : k' ≠ k) :
    (m.write k v).read k' = m.read k' := by
  induction m with
  | nil => simp [Memory.write, Memory.read, h]
  | cons p m ih =>
    obtain ⟨j, u⟩ := p
    rw [Memory.write_cons]
    split
    · rw [Memory.read_cons, if_neg h]
    · split
      · subst_vars; simp [Memory.read_cons, h]
      · rw [Memory.read_cons, Memory.read_cons, ih]

theorem Memory.read_write (m : Memory) (k k' : Nat) (v : FieldElem) :
    (m.write k v).read k' = if k' = k then some v else m.read k' := by
  split
  · subst_vars; exact m.read_write_same _ v
  · exact m.read_write_other v ‹_›

/-- Every index a write lists was listed before or is the one written. -/
theorem Memory.mem_write {m : Memory} {k : Nat} {v : FieldElem} {p : Nat × FieldElem} (h : p ∈ m.write k v) :
    p = (k, v) ∨ p ∈ m := by
  induction m with
  | nil => simpa [Memory.write] using h
  | cons q m ih =>
    obtain ⟨j, u⟩ := q
    rw [Memory.write_cons] at h
    split at h
    · simpa using h
    · split at h
      · simp only [List.mem_cons] at h ⊢; tauto
      · simp only [List.mem_cons] at h ⊢
        rcases h with h | h
        · exact .inr (.inl h)
        · exact (ih h).imp_right .inr

theorem Memory.wf_write {m : Memory} (h : m.wf) (k : Nat) (v : FieldElem) : (m.write k v).wf := by
  induction m with
  | nil => simp [Memory.wf, Memory.write]
  | cons p m ih =>
    obtain ⟨j, u⟩ := p
    obtain ⟨hj, hm⟩ := List.pairwise_cons.1 h
    rw [Memory.write_cons]
    split
    · refine List.pairwise_cons.2 ⟨fun q hq => ?_, h⟩
      rcases List.mem_cons.1 hq with rfl | hq
      · assumption
      · exact lt_trans ‹k < j› (hj q hq)
    · split
      · subst_vars; exact List.pairwise_cons.2 ⟨hj, hm⟩
      · refine List.pairwise_cons.2 ⟨fun q hq => ?_, ih hm⟩
        rcases Memory.mem_write hq with rfl | hq
        · show j < k; omega
        · exact hj q hq

theorem Memory.within_write {m : Memory} {nmax k : Nat} (h : m.within nmax) (hk : k < nmax) (v : FieldElem) :
    (m.write k v).within nmax := by
  intro p hp
  rcases Memory.mem_write hp with rfl | hp
  · exact hk
  · exact h p hp

/-- A cell whose index no listed index reaches from below is Unwritten. -/
theorem Memory.read_eq_none_of_lt {m : Memory} {k : Nat} (h : ∀ p ∈ m, k < p.1) : m.read k = none := by
  induction m with
  | nil => rfl
  | cons p m ih =>
    obtain ⟨j, u⟩ := p
    have hj : k < j := h (j, u) (by simp)
    rw [Memory.read_cons, if_neg (by omega), ih fun q hq => h q (List.mem_cons_of_mem _ hq)]

theorem Memory.read_eq_none_of_within {m : Memory} {nmax k : Nat} (h : m.within nmax) (hk : nmax ≤ k) :
    m.read k = none := by
  induction m with
  | nil => rfl
  | cons p m ih =>
    obtain ⟨j, u⟩ := p
    have hj : j < nmax := h (j, u) (by simp)
    rw [Memory.read_cons, if_neg (by omega), ih fun q hq => h q (List.mem_cons_of_mem _ hq)]

/-- Two memories in canonical form with the same contents are the same list. -/
theorem Memory.eq_of_read_eq {m m' : Memory} (h : m.wf) (h' : m'.wf) (he : ∀ k, m.read k = m'.read k) : m = m' := by
  induction m generalizing m' with
  | nil =>
    cases m' with
    | nil => rfl
    | cons p m' =>
      obtain ⟨j, u⟩ := p
      have := he j
      simp [Memory.read_cons] at this
  | cons p m ih =>
    obtain ⟨j, u⟩ := p
    obtain ⟨hj, hm⟩ := List.pairwise_cons.1 h
    cases m' with
    | nil => have := he j; simp [Memory.read_cons] at this
    | cons p' m' =>
      obtain ⟨j', u'⟩ := p'
      obtain ⟨hj', hm'⟩ := List.pairwise_cons.1 h'
      have hjj : j = j' := by
        rcases lt_trichotomy j j' with hlt | heq | hlt
        · have := he j
          rw [Memory.read_cons, if_pos rfl, Memory.read_cons, if_neg (by omega),
            Memory.read_eq_none_of_lt fun q hq => lt_trans hlt (hj' q hq)] at this
          simp at this
        · exact heq
        · have := he j'
          rw [Memory.read_cons, if_neg (by omega), Memory.read_cons, if_pos rfl,
            Memory.read_eq_none_of_lt fun q hq => lt_trans hlt (hj q hq)] at this
          simp at this
      subst hjj
      have huu : u = u' := by have := he j; simpa [Memory.read_cons] using this
      subst huu
      refine congrArg _ (ih hm hm' fun k => ?_)
      have := he k
      rw [Memory.read_cons, Memory.read_cons] at this
      by_cases hk : k = j
      · subst hk; rw [Memory.read_eq_none_of_lt hj, Memory.read_eq_none_of_lt hj']
      · simpa [hk] using this

theorem Memory.write_read_self {m : Memory} (h : m.wf) {k : Nat} {v : FieldElem} (hk : m.read k = some v) :
    m.write k v = m :=
  Memory.eq_of_read_eq (Memory.wf_write h k v) h fun k' => by
    rw [Memory.read_write]; split
    · subst_vars; exact hk.symm
    · rfl

/-- What a range write leaves in each cell. -/
theorem Memory.read_writeRange (m : Memory) (start : Nat) (vs : List FieldElem) (k : Nat) :
    (m.writeRange start vs).read k =
      if start ≤ k ∧ k < start + vs.length then vs[k - start]? else m.read k := by
  induction vs generalizing m start with
  | nil => rw [if_neg (by simp)]; rfl
  | cons v vs ih =>
    rw [Memory.writeRange, ih, Memory.read_write, List.length_cons]
    by_cases h0 : k = start
    · subst h0; simp
    · by_cases h1 : start ≤ k ∧ k < start + (vs.length + 1)
      · obtain ⟨d, hd⟩ : ∃ d, k - start = d + 1 := ⟨k - start - 1, by omega⟩
        rw [if_pos (by omega), if_pos h1, hd, List.getElem?_cons_succ]
        congr 1; omega
      · rw [if_neg (by omega), if_neg h1, if_neg h0]

theorem Memory.wf_writeRange {m : Memory} (h : m.wf) (start : Nat) (vs : List FieldElem) :
    (m.writeRange start vs).wf := by
  induction vs generalizing m start with
  | nil => exact h
  | cons v vs ih => exact ih (Memory.wf_write h start v) (start + 1)

theorem Memory.within_writeRange {m : Memory} {nmax start : Nat} {vs : List FieldElem} (h : m.within nmax)
    (hn : start + vs.length ≤ nmax) : (m.writeRange start vs).within nmax := by
  induction vs generalizing m start with
  | nil => exact h
  | cons v vs ih =>
    rw [List.length_cons] at hn
    exact ih (Memory.within_write h (by omega) v) (by omega)

/-- A range read answers exactly when every cell of the range is written, and then with their elements. -/
theorem Memory.readRange_eq_some {m : Memory} {start n : Nat} {vs : List FieldElem} :
    m.readRange start n = some vs ↔ vs.length = n ∧ ∀ k < n, m.read (start + k) = vs[k]? := by
  induction n generalizing start vs with
  | zero =>
    constructor
    · intro h; cases h; simp
    · rintro ⟨h, -⟩; rw [List.length_eq_zero_iff.1 h]; rfl
  | succ n ih =>
    constructor
    · intro h
      rw [Memory.readRange] at h
      split at h
      · rename_i v ws hv hws
        cases h
        obtain ⟨hl, hr⟩ := ih.1 hws
        refine ⟨by simp [hl], fun k hk => ?_⟩
        cases k with
        | zero => simpa using hv
        | succ k =>
          have := hr k (by omega)
          rw [show start + (k + 1) = start + 1 + k by omega]; simpa using this
      · cases h
    · rintro ⟨hl, hr⟩
      cases vs with
      | nil => simp at hl
      | cons v ws =>
        have h0 : m.read start = some v := by simpa using hr 0 (by omega)
        have h1 : m.readRange (start + 1) n = some ws := ih.2 ⟨by simpa using hl, fun k hk => by
          have := hr (k + 1) (by omega)
          rw [show start + 1 + k = start + (k + 1) by omega]; simpa using this⟩
        simp [Memory.readRange, h0, h1]

theorem Memory.readRange_isSome_iff {m : Memory} {start n : Nat} :
    (m.readRange start n).isSome ↔ ∀ k < n, (m.read (start + k)).isSome := by
  induction n generalizing start with
  | zero => simp [Memory.readRange]
  | succ n ih =>
    have step : (m.readRange start (n + 1)).isSome ↔
        (m.read start).isSome ∧ (m.readRange (start + 1) n).isSome := by
      rw [Memory.readRange]
      cases m.read start <;> cases m.readRange (start + 1) n <;> simp
    rw [step, ih]
    constructor
    · rintro ⟨h0, hr⟩ k hk
      cases k with
      | zero => exact h0
      | succ k => rw [show start + (k + 1) = start + 1 + k by omega]; exact hr k (by omega)
    · intro h
      exact ⟨by simpa using h 0 (by omega), fun k hk => by
        rw [show start + 1 + k = start + (k + 1) by omega]; exact h (k + 1) (by omega)⟩

theorem Memory.readRange_length {m : Memory} {start n : Nat} {vs : List FieldElem}
    (h : m.readRange start n = some vs) : vs.length = n := (Memory.readRange_eq_some.1 h).1

/-- Writing a range back as it was read changes nothing, in the canonical form. -/
theorem Memory.writeRange_readRange_self {m : Memory} (h : m.wf) {start n : Nat} {vs : List FieldElem}
    (hr : m.readRange start n = some vs) : m.writeRange start vs = m := by
  obtain ⟨hl, hr⟩ := Memory.readRange_eq_some.1 hr
  refine Memory.eq_of_read_eq (Memory.wf_writeRange h start vs) h fun k => ?_
  rw [Memory.read_writeRange]
  split
  · rename_i hk
    rw [← hr (k - start) (by omega)]
    congr 1
    omega
  · rfl

end Sys2Proof.Machine
end

