-- ==== Sys2Proof/Laws/State.lean ====
section
/-! SUPPORT. One lemma per field and update of the state, so that no later proof unfolds a record update. -/

namespace Sys2Proof.Machine

section Updates
variable (s : State) (r r' : RegNum) (v : FieldElem) (x : Word64) (b b' : BufSel) (m : Memory) (w : Word32)
variable (e : ErrorKind) (k k' : Nat) (vs : List FieldElem)

@[simp] theorem State.writeF_cfg : (s.writeF r v).cfg = s.cfg := rfl
@[simp] theorem State.writeF_x : (s.writeF r v).x = s.x := rfl
@[simp] theorem State.writeF_buf0 : (s.writeF r v).buf0 = s.buf0 := rfl
@[simp] theorem State.writeF_buf1 : (s.writeF r v).buf1 = s.buf1 := rfl
@[simp] theorem State.writeF_buffer : (s.writeF r v).buffer b = s.buffer b := by cases b <;> rfl
@[simp] theorem State.writeF_err : (s.writeF r v).err = s.err := rfl
@[simp] theorem State.writeF_errinfo : (s.writeF r v).errinfo = s.errinfo := rfl
@[simp] theorem State.writeF_pending : (s.writeF r v).pending = s.pending := rfl
@[simp] theorem State.writeF_replies : (s.writeF r v).replies = s.replies := rfl
@[simp] theorem State.writeF_readX : (s.writeF r v).readX r' = s.readX r' := rfl
@[simp] theorem State.writeF_readCell : (s.writeF r v).readCell b k = s.readCell b k := by
  simp [State.readCell]

@[simp] theorem State.writeX_cfg : (s.writeX r x).cfg = s.cfg := rfl
@[simp] theorem State.writeX_f : (s.writeX r x).f = s.f := rfl
@[simp] theorem State.writeX_buf0 : (s.writeX r x).buf0 = s.buf0 := rfl
@[simp] theorem State.writeX_buf1 : (s.writeX r x).buf1 = s.buf1 := rfl
@[simp] theorem State.writeX_buffer : (s.writeX r x).buffer b = s.buffer b := by cases b <;> rfl
@[simp] theorem State.writeX_err : (s.writeX r x).err = s.err := rfl
@[simp] theorem State.writeX_errinfo : (s.writeX r x).errinfo = s.errinfo := rfl
@[simp] theorem State.writeX_pending : (s.writeX r x).pending = s.pending := rfl
@[simp] theorem State.writeX_replies : (s.writeX r x).replies = s.replies := rfl
@[simp] theorem State.writeX_readF : (s.writeX r x).readF r' = s.readF r' := rfl
@[simp] theorem State.writeX_readCell : (s.writeX r x).readCell b k = s.readCell b k := by
  simp [State.readCell]

@[simp] theorem State.setBuffer_cfg : (s.setBuffer b m).cfg = s.cfg := by cases b <;> rfl
@[simp] theorem State.setBuffer_f : (s.setBuffer b m).f = s.f := by cases b <;> rfl
@[simp] theorem State.setBuffer_x : (s.setBuffer b m).x = s.x := by cases b <;> rfl
@[simp] theorem State.setBuffer_err : (s.setBuffer b m).err = s.err := by cases b <;> rfl
@[simp] theorem State.setBuffer_errinfo : (s.setBuffer b m).errinfo = s.errinfo := by cases b <;> rfl
@[simp] theorem State.setBuffer_pending : (s.setBuffer b m).pending = s.pending := by cases b <;> rfl
@[simp] theorem State.setBuffer_replies : (s.setBuffer b m).replies = s.replies := by cases b <;> rfl
@[simp] theorem State.setBuffer_buffer_same : (s.setBuffer b m).buffer b = m := by cases b <;> rfl
theorem State.setBuffer_buffer_other (h : b' ≠ b) : (s.setBuffer b m).buffer b' = s.buffer b' := by
  cases b <;> cases b' <;> first | rfl | exact absurd rfl h
@[simp] theorem State.setBuffer_self : s.setBuffer b (s.buffer b) = s := by cases b <;> rfl

@[simp] theorem State.reply_cfg : (s.reply w).cfg = s.cfg := rfl
@[simp] theorem State.reply_f : (s.reply w).f = s.f := rfl
@[simp] theorem State.reply_x : (s.reply w).x = s.x := rfl
@[simp] theorem State.reply_buf0 : (s.reply w).buf0 = s.buf0 := rfl
@[simp] theorem State.reply_buf1 : (s.reply w).buf1 = s.buf1 := rfl
@[simp] theorem State.reply_buffer : (s.reply w).buffer b = s.buffer b := by cases b <;> rfl
@[simp] theorem State.reply_readCell : (s.reply w).readCell b k = s.readCell b k := by simp [State.readCell]
@[simp] theorem State.reply_err : (s.reply w).err = s.err := rfl
@[simp] theorem State.reply_errinfo : (s.reply w).errinfo = s.errinfo := rfl
@[simp] theorem State.reply_pending : (s.reply w).pending = s.pending := rfl
@[simp] theorem State.reply_replies : (s.reply w).replies = w :: s.replies := rfl

@[simp] theorem State.clearError_cfg : s.clearError.cfg = s.cfg := rfl
@[simp] theorem State.clearError_f : s.clearError.f = s.f := rfl
@[simp] theorem State.clearError_x : s.clearError.x = s.x := rfl
@[simp] theorem State.clearError_buf0 : s.clearError.buf0 = s.buf0 := rfl
@[simp] theorem State.clearError_buf1 : s.clearError.buf1 = s.buf1 := rfl
@[simp] theorem State.clearError_buffer : s.clearError.buffer b = s.buffer b := by cases b <;> rfl
@[simp] theorem State.clearError_readCell : s.clearError.readCell b k = s.readCell b k := by simp [State.readCell]
@[simp] theorem State.clearError_err : s.clearError.err = 0 := rfl
@[simp] theorem State.clearError_errinfo : s.clearError.errinfo = 0 := rfl
@[simp] theorem State.clearError_pending : s.clearError.pending = s.pending := rfl
@[simp] theorem State.clearError_replies : s.clearError.replies = s.replies := rfl

@[simp] theorem State.raiseError_cfg : (s.raiseError e w).cfg = s.cfg := by unfold State.raiseError; split <;> rfl
@[simp] theorem State.raiseError_f : (s.raiseError e w).f = s.f := by unfold State.raiseError; split <;> rfl
@[simp] theorem State.raiseError_x : (s.raiseError e w).x = s.x := by unfold State.raiseError; split <;> rfl
@[simp] theorem State.raiseError_buf0 : (s.raiseError e w).buf0 = s.buf0 := by unfold State.raiseError; split <;> rfl
@[simp] theorem State.raiseError_buf1 : (s.raiseError e w).buf1 = s.buf1 := by unfold State.raiseError; split <;> rfl
@[simp] theorem State.raiseError_buffer : (s.raiseError e w).buffer b = s.buffer b := by
  cases b <;> simp [State.buffer]
@[simp] theorem State.raiseError_readCell : (s.raiseError e w).readCell b k = s.readCell b k := by
  simp [State.readCell]
@[simp] theorem State.raiseError_pending : (s.raiseError e w).pending = s.pending := by
  unfold State.raiseError; split <;> rfl
@[simp] theorem State.raiseError_replies : (s.raiseError e w).replies = s.replies := by
  unfold State.raiseError; split <;> rfl

@[simp] theorem State.resetUnit_cfg : s.resetUnit.cfg = s.cfg := rfl
@[simp] theorem State.resetUnit_pending : s.resetUnit.pending = s.pending := rfl
@[simp] theorem State.resetUnit_replies : s.resetUnit.replies = s.replies := rfl

@[simp] theorem State.readF_writeF_same : (s.writeF r v).readF r = v := by
  simp [State.readF, State.writeF, Vector.get_eq_getElem]

theorem State.readF_writeF_other (h : r' ≠ r) : (s.writeF r v).readF r' = s.readF r' := by
  have : r.val ≠ r'.val := fun he => h (Fin.ext he.symm)
  simp [State.readF, State.writeF, Vector.get_eq_getElem, this]

@[simp] theorem State.readX_writeX_same : (s.writeX r x).readX r = x := by
  simp [State.readX, State.writeX, Vector.get_eq_getElem]

theorem State.readX_writeX_other (h : r' ≠ r) : (s.writeX r x).readX r' = s.readX r' := by
  have : r.val ≠ r'.val := fun he => h (Fin.ext he.symm)
  simp [State.readX, State.writeX, Vector.get_eq_getElem, this]

@[simp] theorem State.readCell_writeCell_same : (s.writeCell b k v).readCell b k = some v := by
  simp [State.readCell, State.writeCell]

/-- A store changes no cell but its own. -/
theorem State.readCell_writeCell_other (h : ¬ (b' = b ∧ k' = k)) :
    (s.writeCell b k v).readCell b' k' = s.readCell b' k' := by
  unfold State.readCell State.writeCell
  by_cases hb : b' = b
  · subst hb; rw [State.setBuffer_buffer_same, Memory.read_write_other _ _ fun hk => h ⟨rfl, hk⟩]
  · rw [State.setBuffer_buffer_other _ _ _ _ hb]

/-- What a whole-buffer write leaves in each cell. -/
theorem State.readCell_writeCells :
    (s.writeCells b vs).readCell b' k = if b' = b ∧ k < vs.length then vs[k]? else s.readCell b' k := by
  unfold State.readCell State.writeCells
  by_cases hb : b' = b
  · subst hb; rw [State.setBuffer_buffer_same, Memory.read_writeRange]; simp
  · rw [State.setBuffer_buffer_other _ _ _ _ hb, if_neg fun h => hb h.1]

@[simp] theorem State.writeCell_cfg : (s.writeCell b k v).cfg = s.cfg := s.setBuffer_cfg b _
@[simp] theorem State.writeCell_f : (s.writeCell b k v).f = s.f := s.setBuffer_f b _
@[simp] theorem State.writeCell_x : (s.writeCell b k v).x = s.x := s.setBuffer_x b _
@[simp] theorem State.writeCell_err : (s.writeCell b k v).err = s.err := s.setBuffer_err b _
@[simp] theorem State.writeCell_errinfo : (s.writeCell b k v).errinfo = s.errinfo := s.setBuffer_errinfo b _
@[simp] theorem State.writeCell_pending : (s.writeCell b k v).pending = s.pending := s.setBuffer_pending b _
@[simp] theorem State.writeCell_replies : (s.writeCell b k v).replies = s.replies := s.setBuffer_replies b _

@[simp] theorem State.writeCells_cfg : (s.writeCells b vs).cfg = s.cfg := s.setBuffer_cfg b _
@[simp] theorem State.writeCells_f : (s.writeCells b vs).f = s.f := s.setBuffer_f b _
@[simp] theorem State.writeCells_x : (s.writeCells b vs).x = s.x := s.setBuffer_x b _
@[simp] theorem State.writeCells_err : (s.writeCells b vs).err = s.err := s.setBuffer_err b _
@[simp] theorem State.writeCells_errinfo : (s.writeCells b vs).errinfo = s.errinfo := s.setBuffer_errinfo b _
@[simp] theorem State.writeCells_pending : (s.writeCells b vs).pending = s.pending := s.setBuffer_pending b _
@[simp] theorem State.writeCells_replies : (s.writeCells b vs).replies = s.replies := s.setBuffer_replies b _

end Updates

/-! Serving an input takes it off the pending list, which no register and no cell depends on. -/

section Pending
variable (s : State) (q : List HostInput) (r : RegNum) (b : BufSel) (n : Nat)

@[simp] theorem State.withPending_nmax : ({ s with pending := q } : State).nmax = s.nmax := rfl
@[simp] theorem State.withPending_readF : ({ s with pending := q } : State).readF r = s.readF r := rfl
@[simp] theorem State.withPending_readX : ({ s with pending := q } : State).readX r = s.readX r := rfl
@[simp] theorem State.withPending_readS64 : ({ s with pending := q } : State).readS64 r = s.readS64 r := rfl
@[simp] theorem State.withPending_buffer : ({ s with pending := q } : State).buffer b = s.buffer b := by cases b <;> rfl
@[simp] theorem State.withPending_readCell : ({ s with pending := q } : State).readCell b n = s.readCell b n := by
  cases b <;> rfl
@[simp] theorem State.withPending_readCells : ({ s with pending := q } : State).readCells b n = s.readCells b n := by
  cases b <;> rfl

end Pending


end Sys2Proof.Machine

namespace Sys2Proof

/-- NMAX is at least 1 (00_scope.md R11). -/
theorem Config.nmax_pos (c : Config) : 0 < c.nmax := Nat.two_pow_pos _

/-- NMAX is at most 2^23 (00_scope.md R11). -/
theorem Config.nmax_le (c : Config) : c.nmax ≤ 2 ^ 23 :=
  Nat.pow_le_pow_right (by decide) (Nat.lt_succ_iff.1 c.log2Nmax.isLt)

end Sys2Proof
end

