-- ==== Sys2Proof/Laws/Frames.lean ====
section
/-! SUPPORT. What each update of the state leaves unchanged, in the words of the claims, and the two cases of a
latched error. -/

namespace Sys2Proof.Machine

theorem latched_of_clear {s : State} (h : s.err = 0) (code : BitVec 4) (info : Word32) :
    latched code info s = { s with err := code, errinfo := info } := if_pos h

theorem latched_of_set {s : State} (h : s.err ≠ 0) (code : BitVec 4) (info : Word32) : latched code info s = s :=
  if_neg h

theorem onlyF_writeF (s : State) (r : RegNum) (v : FieldElem) : OnlyF r s (s.writeF r v) :=
  ⟨fun _ h => s.readF_writeF_other _ _ _ h, fun _ => rfl, fun _ _ => by simp, ⟨rfl, rfl⟩, rfl, rfl, rfl⟩

theorem onlyX_writeX (s : State) (r : RegNum) (v : Word64) : OnlyX r s (s.writeX r v) :=
  ⟨fun _ => rfl, fun _ h => s.readX_writeX_other _ _ _ h, fun _ _ => by simp, ⟨rfl, rfl⟩, rfl, rfl, rfl⟩

theorem onlyCells_writeCell (s : State) (b : BufSel) (k : Nat) (v : FieldElem) :
    OnlyCells (fun b' k' => b' = b ∧ k' = k) s (s.writeCell b k v) :=
  ⟨fun _ => by simp [State.readF], fun _ => by simp [State.readX],
    fun _ _ h => s.readCell_writeCell_other _ _ _ _ _ h, ⟨by simp, by simp⟩, by simp, by simp, by simp⟩

theorem onlyCells_writeCells (s : State) (b : BufSel) {n : Nat} {vs : List FieldElem} (hn : vs.length = n) :
    OnlyCells (fun b' k' => b' = b ∧ k' < n) s (s.writeCells b vs) :=
  ⟨fun _ => by simp [State.readF], fun _ => by simp [State.readX],
    fun _ _ h => by rw [State.readCell_writeCells, if_neg (by rwa [hn])], ⟨by simp, by simp⟩, by simp, by simp, by simp⟩

theorem onlyStatus_latched (code : BitVec 4) (info : Word32) (s : State) : OnlyStatus s (latched code info s) := by
  unfold latched
  split
  · exact ⟨fun _ => rfl, fun _ => rfl, fun b _ => by cases b <;> rfl, rfl, rfl, rfl⟩
  · exact ⟨fun _ => rfl, fun _ => rfl, fun _ _ => rfl, rfl, rfl, rfl⟩

end Sys2Proof.Machine
end

