-- ==== Sys2Proof/Laws/Field.lean ====
section
/-! SUPPORT. The field operations in the ring of integers mod P, so that an algebra proof never unfolds them. -/

namespace Sys2Proof

@[simp] theorem reduceNat_val (v : Nat) : (reduceNat v).val = v % P := rfl

theorem reduceNat_of_lt {v : Nat} (h : v < P) : (reduceNat v).val = v := Nat.mod_eq_of_lt h

@[simp] theorem reduceNat_val_self (v : FieldElem) : reduceNat v.val = v := Fin.ext (Nat.mod_eq_of_lt v.isLt)

theorem fadd_val (a b : FieldElem) : (fadd a b).val = (a.val + b.val) % P := rfl

theorem fmul_val (a b : FieldElem) : (fmul a b).val = (a.val * b.val) % P := rfl

theorem fsub_val (a b : FieldElem) : ((fsub a b).val : Int) = ((a.val : Int) - b.val) % (P : Int) := by
  have ha : a.val < 998244353 := a.isLt
  have hb : b.val < 998244353 := b.isLt
  unfold fsub
  split <;> rw [reduceNat_val] <;> simp only [show P = 998244353 from rfl] <;> omega

theorem reduceInt_val (v : Int) : ((reduceInt v).val : Int) = v % (P : Int) := by
  unfold reduceInt
  rw [reduceNat_val]
  simp only [show P = 998244353 from rfl]
  omega

theorem reduceInt_natCast (v : Nat) : reduceInt v = reduceNat v := by
  apply Fin.ext
  have := reduceInt_val v
  rw [reduceNat_val]
  simp only [show P = 998244353 from rfl] at this ⊢
  omega

namespace Machine

theorem fieldValue_injective : Function.Injective fieldValue := by
  intro a b h
  have := (ZMod.natCast_eq_natCast_iff' a.val b.val P).1 h
  rw [Nat.mod_eq_of_lt a.isLt, Nat.mod_eq_of_lt b.isLt] at this
  exact Fin.ext this

@[simp] theorem fieldValue_reduceNat (v : Nat) : fieldValue (reduceNat v) = (v : ZMod P) := by
  simp [fieldValue, ZMod.natCast_mod]

@[simp] theorem fieldValue_zero : fieldValue 0 = 0 := by simp [fieldValue]

@[simp] theorem fieldValue_one : fieldValue 1 = 1 := by
  show ((1 : Nat) : ZMod P) = 1
  exact Nat.cast_one

@[simp] theorem fieldValue_fadd (a b : FieldElem) : fieldValue (fadd a b) = fieldValue a + fieldValue b := by
  simp [fadd, fieldValue]

@[simp] theorem fieldValue_fmul (a b : FieldElem) : fieldValue (fmul a b) = fieldValue a * fieldValue b := by
  simp [fmul, fieldValue]

@[simp] theorem fieldValue_fsub (a b : FieldElem) : fieldValue (fsub a b) = fieldValue a - fieldValue b := by
  have h : ((fsub a b).val : ZMod P) = (((fsub a b).val : Int) : ZMod P) := by push_cast; rfl
  rw [fieldValue, h, fsub_val, ZMod.intCast_mod]
  simp [fieldValue]

/-- The recursion of 40_field_arithmetic.md R111 is a^e, whenever its depth covers e ≥ 1. -/
theorem fieldValue_fpowDepth (depth : Nat) (a : FieldElem) {e : Nat} (h1 : 1 ≤ e) (h2 : e < 2 ^ (depth + 1)) :
    fieldValue (fpowDepth depth a e) = fieldValue a ^ e := by
  induction depth generalizing e with
  | zero => rw [show e = 1 by omega, fpowDepth, pow_one]
  | succ depth ih =>
    rw [fpowDepth]
    split
    · subst_vars; rw [pow_one]
    · have ih := ih (e := e / 2) (by omega) (by rw [pow_succ] at h2; omega)
      split
      · rw [fieldValue_fmul, fieldValue_fmul, ih, ← pow_add, ← pow_succ]; congr 1; omega
      · rw [fieldValue_fmul, ih, ← pow_add]; congr 1; omega

/-- fpow(a, e) = a^e for e ≥ 1 (40_field_arithmetic.md R100). -/
theorem fieldValue_fpow (a : FieldElem) {e : Nat} (h : 1 ≤ e) : fieldValue (fpow a e) = fieldValue a ^ e :=
  fieldValue_fpowDepth _ a h Nat.lt_log2_self

theorem fpow_val (a : FieldElem) {e : Nat} (h : 1 ≤ e) : (fpow a e).val = a.val ^ e % P := by
  have h1 := fieldValue_fpow a h
  rw [fieldValue, fieldValue, ← Nat.cast_pow, ZMod.natCast_eq_natCast_iff', Nat.mod_eq_of_lt (fpow a e).isLt] at h1
  exact h1

theorem finv_val (a : FieldElem) : (finv a).val = a.val ^ (P - 2) % P := fpow_val a (by decide)

theorem fdiv_val (a b : FieldElem) : (fdiv a b).val = a.val * b.val ^ (P - 2) % P := by
  rw [fdiv, fmul_val, finv_val, Nat.mul_mod_mod]

theorem fieldValue_rootG : fieldValue rootG = 3 := by
  simp only [fieldValue, rootG]; rfl

/-- P is prime (00_scope.md R8): 3 has order P - 1 = 2^23 · 7 · 17, by the Lucas test. -/
theorem P_prime : Nat.Prime P := by
  have pow_three (e : Nat) (h : 1 ≤ e) (v : FieldElem) (hv : fpow rootG e = v) : (3 : ZMod P) ^ e = fieldValue v := by
    rw [← fieldValue_rootG, ← fieldValue_fpow _ h, hv]
  apply lucas_primality P (3 : ZMod P)
  · rw [pow_three (P - 1) (by decide) 1 (by decide +kernel)]; simp
  · intro q hq hd
    have h : P - 1 = 2 ^ 23 * 7 * 17 := by decide
    rw [h] at hd
    have h2 : q = 2 ∨ q = 7 ∨ q = 17 := by
      rcases (Nat.Prime.dvd_mul hq).1 hd with hd | hd
      · rcases (Nat.Prime.dvd_mul hq).1 hd with hd | hd
        · exact .inl ((Nat.prime_dvd_prime_iff_eq hq Nat.prime_two).1 (hq.dvd_of_dvd_pow hd))
        · exact .inr (.inl ((Nat.prime_dvd_prime_iff_eq hq (by norm_num)).1 hd))
      · exact .inr (.inr ((Nat.prime_dvd_prime_iff_eq hq (by norm_num)).1 hd))
    have ne {v : FieldElem} (hv : v ≠ 1) : fieldValue v ≠ 1 := by
      rw [← fieldValue_one]; exact fun e => hv (fieldValue_injective e)
    rcases h2 with rfl | rfl | rfl
    · rw [pow_three _ (by decide) (fpow rootG ((P - 1) / 2)) rfl]; exact ne (by decide +kernel)
    · rw [pow_three _ (by decide) (fpow rootG ((P - 1) / 7)) rfl]; exact ne (by decide +kernel)
    · rw [pow_three _ (by decide) (fpow rootG ((P - 1) / 17)) rfl]; exact ne (by decide +kernel)

end Machine

end Sys2Proof
end

