-- ==== Sys2Proof/Laws/Transform.lean ====
section
/-! SUPPORT. The pure procedures of the buffer commands: how many elements they return, what rev_n is bit by bit,
and what one pass of the transform does to each element. -/

namespace Sys2Proof.Machine

/-- Bit t of the partial recursion of 41_bit_reversal.md R140. -/
theorem revDepth_testBit (bits depth i t : Nat) (h : depth ≤ bits) :
    (revDepth bits depth i).testBit t = (decide (bits - depth ≤ t ∧ t < bits) && i.testBit (bits - 1 - t)) := by
  induction depth generalizing i t with
  | zero => rw [decide_eq_false (by omega)]; simp [revDepth]
  | succ depth ih =>
    rw [revDepth, Nat.testBit_or, Nat.testBit_shiftRight, ih _ _ (by omega), Nat.testBit_shiftLeft,
      Nat.testBit_and, Nat.testBit_shiftRight, Bool.eq_iff_iff]
    simp only [Bool.or_eq_true, Bool.and_eq_true, decide_eq_true_eq, Nat.testBit_one_eq_true_iff_self_eq_zero]
    constructor
    · rintro (⟨h1, h2⟩ | ⟨h1, h2, h3⟩)
      · exact ⟨by omega, by rwa [show 1 + (bits - 1 - (1 + t)) = bits - 1 - t by omega] at h2⟩
      · obtain rfl : t = bits - 1 := by omega
        exact ⟨by omega, h2⟩
    · rintro ⟨h1, h2⟩
      by_cases h0 : t = bits - 1
      · subst h0; exact .inr ⟨le_rfl, h2, by omega⟩
      · exact .inl ⟨by omega, by rwa [show 1 + (bits - 1 - (1 + t)) = bits - 1 - t by omega]⟩

/-- rev_n(i) reverses the low log2(n) bits of i (41_bit_reversal.md R140). -/
theorem bitRev_testBit (bits i t : Nat) :
    (bitRev bits i).testBit t = (decide (t < bits) && i.testBit (bits - 1 - t)) := by
  rw [bitRev, revDepth_testBit _ _ _ _ le_rfl]; simp

theorem bitRev_lt (bits i : Nat) : bitRev bits i < 2 ^ bits := by
  refine Nat.lt_pow_two_of_testBit _ fun t ht => ?_
  rw [bitRev_testBit, decide_eq_false (by omega)]; rfl

@[simp] theorem elemAt_of_lt {a : List FieldElem} {i : Nat} (h : i < a.length) : elemAt a i = a[i] := by
  simp [elemAt, h]

theorem elemAt_set (a : List FieldElem) (i j : Nat) (v : FieldElem) :
    elemAt (a.set i v) j = if j = i ∧ i < a.length then v else elemAt a j := by
  simp only [elemAt, List.getD_eq_getElem?_getD, List.getElem?_set]
  by_cases h : i = j
  · subst h; by_cases h2 : i < a.length <;> simp [h2]
  · simp [h, Ne.symm h]

@[simp] theorem swapElems_length (a : List FieldElem) (i j : Nat) : (swapElems a i j).length = a.length := by
  simp [swapElems]

/-- A fold whose every pass keeps the number of elements keeps it. -/
theorem foldl_length_eq {α : Type} (g : List FieldElem → α → List FieldElem) (hg : ∀ a x, (g a x).length = a.length)
    (xs : List α) (a : List FieldElem) : (xs.foldl g a).length = a.length := by
  induction xs generalizing a with
  | nil => rfl
  | cons x xs ih => rw [List.foldl_cons, ih, hg]

@[simp] theorem reorder_length (n : Nat) (a : List FieldElem) : (reorder n a).length = a.length :=
  foldl_length_eq _ (fun a i => by split <;> simp) _ a

@[simp] theorem butterflyAt_length (a : List FieldElem) (lo hi : Nat) (w : FieldElem) :
    (butterflyAt a lo hi w).length = a.length := by simp [butterflyAt]

/-- One butterfly: the sum at the lower index, the difference at the higher, nothing elsewhere (42_ntt.md R151). -/
theorem elemAt_butterflyAt (a : List FieldElem) {lo hi : Nat} (w : FieldElem) (p : Nat) (hlt : lo < hi)
    (hhi : hi < a.length) :
    elemAt (butterflyAt a lo hi w) p =
      if p = lo then fadd (elemAt a lo) (fmul w (elemAt a hi))
      else if p = hi then fsub (elemAt a lo) (fmul w (elemAt a hi))
      else elemAt a p := by
  simp only [butterflyAt, butterfly, elemAt_set, List.length_set]
  by_cases h1 : p = lo
  · subst h1; rw [if_neg (by omega), if_pos (by omega), if_pos rfl]
  · rw [if_neg h1]
    by_cases h2 : p = hi
    · subst h2; rw [if_pos ⟨rfl, hhi⟩, if_pos rfl]
    · rw [if_neg (fun h => h2 h.1), if_neg (fun h => h1 h.1), if_neg h2]

/-- The twiddle before offset k of a block: w1 multiplied in k times, starting at 1 (42_ntt.md R152). -/
def twiddle (w1 : FieldElem) : Nat → FieldElem
  | 0 => 1
  | k + 1 => fmul (twiddle w1 k) w1

@[simp] theorem fieldValue_twiddle (w1 : FieldElem) (k : Nat) : fieldValue (twiddle w1 k) = fieldValue w1 ^ k := by
  induction k with
  | zero => simp [twiddle]
  | succ k ih => rw [twiddle, fieldValue_fmul, ih, pow_succ]

/-- The first k butterflies of a block. -/
def blockPrefix (j : Nat) (w1 : FieldElem) (i : Nat) (a : List FieldElem) (k : Nat) : List FieldElem × FieldElem :=
  (List.range k).foldl (fun (st : List FieldElem × FieldElem) k =>
    (butterflyAt st.1 (i + k) (i + j + k) st.2, fmul st.2 w1)) (a, 1)

theorem blockPrefix_succ (j : Nat) (w1 : FieldElem) (i : Nat) (a : List FieldElem) (k : Nat) :
    blockPrefix j w1 i a (k + 1) =
      (butterflyAt (blockPrefix j w1 i a k).1 (i + k) (i + j + k) (blockPrefix j w1 i a k).2,
        fmul (blockPrefix j w1 i a k).2 w1) := by
  simp [blockPrefix, List.range_succ]

theorem blockPrefix_snd (j : Nat) (w1 : FieldElem) (i : Nat) (a : List FieldElem) (k : Nat) :
    (blockPrefix j w1 i a k).2 = twiddle w1 k := by
  induction k with
  | zero => rfl
  | succ k ih => rw [blockPrefix_succ, ih]; rfl

@[simp] theorem blockPrefix_length (j : Nat) (w1 : FieldElem) (i : Nat) (a : List FieldElem) (k : Nat) :
    (blockPrefix j w1 i a k).1.length = a.length := by
  induction k with
  | zero => rfl
  | succ k ih => rw [blockPrefix_succ, butterflyAt_length, ih]

theorem blockPass_eq (j : Nat) (w1 : FieldElem) (i : Nat) (a : List FieldElem) :
    blockPass j w1 i a = (blockPrefix j w1 i a j).1 := rfl

@[simp] theorem blockPass_length (j : Nat) (w1 : FieldElem) (i : Nat) (a : List FieldElem) :
    (blockPass j w1 i a).length = a.length := blockPrefix_length j w1 i a j

theorem elemAt_blockPrefix (j : Nat) (w1 : FieldElem) (i : Nat) (a : List FieldElem) (k : Nat) (hk : k ≤ j)
    (hlen : i + 2 * j ≤ a.length) (p : Nat) :
    elemAt (blockPrefix j w1 i a k).1 p =
      if i ≤ p ∧ p < i + k then fadd (elemAt a p) (fmul (twiddle w1 (p - i)) (elemAt a (p + j)))
      else if i + j ≤ p ∧ p < i + j + k then
        fsub (elemAt a (p - j)) (fmul (twiddle w1 (p - j - i)) (elemAt a p))
      else elemAt a p := by
  induction k generalizing p with
  | zero => rw [if_neg (by omega), if_neg (by omega)]; rfl
  | succ k ih =>
    rw [blockPrefix_succ, elemAt_butterflyAt _ _ _ (by omega) (by rw [blockPrefix_length]; omega), blockPrefix_snd,
      ih (by omega), ih (by omega), ih (by omega), if_neg (c := i ≤ i + k ∧ i + k < i + k) (by omega),
      if_neg (c := i + j ≤ i + k ∧ i + k < i + j + k) (by omega),
      if_neg (c := i ≤ i + j + k ∧ i + j + k < i + k) (by omega),
      if_neg (c := i + j ≤ i + j + k ∧ i + j + k < i + j + k) (by omega)]
    by_cases h1 : p = i + k
    · subst h1
      rw [if_pos rfl, if_pos (by omega), Nat.add_sub_cancel_left]
      congr 3; omega
    · rw [if_neg h1]
      by_cases h2 : p = i + j + k
      · subst h2
        rw [if_pos rfl, if_neg (by omega), if_pos (by omega), show i + j + k - j = i + k by omega,
          Nat.add_sub_cancel_left]
      · rw [if_neg h2]
        by_cases h3 : i ≤ p ∧ p < i + k
        · rw [if_pos h3, if_pos (by omega)]
        · rw [if_neg h3, if_neg (c := i ≤ p ∧ p < i + (k + 1)) (by omega)]
          by_cases h4 : i + j ≤ p ∧ p < i + j + k
          · rw [if_pos h4, if_pos (by omega)]
          · rw [if_neg h4, if_neg (by omega)]

/-- One block: butterflies between its lower and its upper half, nothing outside it (42_ntt.md R152). -/
theorem elemAt_blockPass (j : Nat) (w1 : FieldElem) (i : Nat) (a : List FieldElem) (hlen : i + 2 * j ≤ a.length)
    (p : Nat) :
    elemAt (blockPass j w1 i a) p =
      if i ≤ p ∧ p < i + j then fadd (elemAt a p) (fmul (twiddle w1 (p - i)) (elemAt a (p + j)))
      else if i + j ≤ p ∧ p < i + 2 * j then
        fsub (elemAt a (p - j)) (fmul (twiddle w1 (p - j - i)) (elemAt a p))
      else elemAt a p := by
  rw [blockPass_eq, elemAt_blockPrefix j w1 i a j le_rfl hlen p, show i + j + j = i + 2 * j by omega]

@[simp] theorem stagePass_length (n j : Nat) (w1 : FieldElem) (a : List FieldElem) :
    (stagePass n j w1 a).length = a.length := foldl_length_eq _ (fun _ _ => blockPass_length _ _ _ _) _ a

theorem elemAt_blocks (j : Nat) (w1 : FieldElem) (hj : 0 < j) (a : List FieldElem) (m : Nat)
    (hlen : m * (2 * j) ≤ a.length) (p : Nat) :
    elemAt ((List.range m).foldl (fun a block => blockPass j w1 (block * (2 * j)) a) a) p =
      if p < m * (2 * j) then
        if p % (2 * j) < j then fadd (elemAt a p) (fmul (twiddle w1 (p % (2 * j))) (elemAt a (p + j)))
        else fsub (elemAt a (p - j)) (fmul (twiddle w1 (p % (2 * j) - j)) (elemAt a p))
      else elemAt a p := by
  induction m generalizing p with
  | zero => simp
  | succ m ih =>
    have hm : m * (2 * j) ≤ a.length := by rw [Nat.succ_mul] at hlen; omega
    have hlen' : ((List.range m).foldl (fun a block => blockPass j w1 (block * (2 * j)) a) a).length = a.length :=
      foldl_length_eq _ (fun _ _ => blockPass_length _ _ _ _) _ a
    rw [List.range_succ, List.foldl_append, List.foldl_cons, List.foldl_nil,
      elemAt_blockPass _ _ _ _ (by rw [hlen', ← Nat.succ_mul]; exact hlen), Nat.succ_mul m]
    by_cases hlt : p < m * (2 * j)
    · rw [if_neg (by omega), if_neg (by omega), ih hm, if_pos hlt,
        if_pos (c := p < m * (2 * j) + 2 * j) (by omega)]
    · by_cases hge : p < m * (2 * j) + 2 * j
      · obtain ⟨d, rfl⟩ : ∃ d, p = m * (2 * j) + d := ⟨p - m * (2 * j), by omega⟩
        have hmod : (m * (2 * j) + d) % (2 * j) = d := by
          rw [Nat.add_comm, Nat.add_mul_mod_self_right, Nat.mod_eq_of_lt (by omega)]
        rw [if_pos hge, hmod]
        by_cases hd : d < j
        · rw [if_pos (by omega), if_pos hd, ih hm, ih hm, if_neg (by omega), if_neg (by omega),
            Nat.add_sub_cancel_left]
        · rw [if_neg (by omega), if_pos (by omega), if_neg hd, ih hm, ih hm, if_neg (by omega), if_neg (by omega),
            show m * (2 * j) + d - j - m * (2 * j) = d - j by omega]
      · rw [if_neg (by omega), if_neg (by omega), ih hm, if_neg hlt, if_neg (by omega)]

/-- One stage of width j on n elements, n a multiple of 2j: at offset d = p mod 2j of its block, the sum of the
element and the twiddled element j above for d < j, the difference with the element j below for d ≥ j
(42_ntt.md R152). -/
theorem elemAt_stagePass {n j : Nat} (w1 : FieldElem) (hj : 0 < j) (hn : 2 * j ∣ n) {a : List FieldElem}
    (ha : a.length = n) {p : Nat} (hp : p < n) :
    elemAt (stagePass n j w1 a) p =
      if p % (2 * j) < j then fadd (elemAt a p) (fmul (twiddle w1 (p % (2 * j))) (elemAt a (p + j)))
      else fsub (elemAt a (p - j)) (fmul (twiddle w1 (p % (2 * j) - j)) (elemAt a p)) := by
  rw [stagePass, elemAt_blocks j w1 hj a _ (by rw [Nat.div_mul_cancel hn, ha]), Nat.div_mul_cancel hn, if_pos hp]

@[simp] theorem allStages_length (inv : Bool) (n : Nat) (a : List FieldElem) :
    (allStages inv n a).length = a.length := foldl_length_eq _ (fun _ _ => stagePass_length _ _ _ _) _ a

@[simp] theorem nttCore_length (inv : Bool) (n : Nat) (a : List FieldElem) : (nttCore inv n a).length = a.length := by
  unfold nttCore; split <;> simp

@[simp] theorem revTable_length (n : Nat) : (revTable n).length = n := by simp [revTable]

theorem squareSpectrum_length {n : Nat} {a : List FieldElem} (h : a.length ≤ n) : (squareSpectrum n a).length = n := by
  simp [squareSpectrum, h]

theorem squareResult_length {nmax n : Nat} {a : List FieldElem} (h : a.length ≤ n) (hn : n ≤ nmax) :
    (squareResult nmax n a).length = nmax := by
  simp [squareResult, squareSpectrum_length h, hn]

end Sys2Proof.Machine
end

