-- ==== Sys2Proof/Laws/Commands.lean ====
section
/-! SUPPORT. What a command can do, said once: the shapes of the next state `exec` answers, when it faults, and that
it never refuses. Every frame and every invariant of the commands follows from `exec_effect`. -/

namespace Sys2Proof.Machine

/-- Every next state of a command `i` in state `s`. -/
inductive CommandEffect (i : Instr) (s : State) : State → Prop where
  | nothing : i = .nop → CommandEffect i s s
  | clears : i = .clrerr → CommandEffect i s s.clearError
  | writesF (fd : RegNum) (v : FieldElem) : destF i = some fd → CommandEffect i s (s.writeF fd v)
  | writesX (xd : RegNum) (v : Word64) : destX i = some xd → CommandEffect i s (s.writeX xd v)
  | writesCell (b : BufSel) (k : Nat) (v : FieldElem) :
      k < s.nmax → MayWriteCell i s b k → CommandEffect i s (s.writeCell b k v)
  | writesCells (b : BufSel) (vs : List FieldElem) :
      vs.length ≤ s.nmax → (∀ k < vs.length, MayWriteCell i s b k) → CommandEffect i s (s.writeCells b vs)
  | writesBoth (f t : BufSel) (vs ws : List FieldElem) :
      vs.length ≤ s.nmax → ws.length = s.nmax → (∀ k < vs.length, MayWriteCell i s f k) →
      (∀ k < ws.length, MayWriteCell i s t k) → CommandEffect i s ((s.writeCells f vs).writeCells t ws)
  | raises (e : ErrorKind) : i ≠ .nop → i ≠ .clrerr → CommandEffect i s (s.raiseError e (encode i))

theorem validLength_iff {nmax : Nat} {n : Int} :
    validLength nmax n = true ↔ 1 ≤ n ∧ isPow2 n.toNat = true ∧ n ≤ (nmax : Int) := by
  simp [validLength, and_assoc]

theorem validIndex_iff {nmax : Nat} {i : Int} : validIndex nmax i = true ↔ 0 ≤ i ∧ i < (nmax : Int) := by
  simp [validIndex]

theorem validSquareLength_iff {nmax : Nat} {fl : Int} :
    validSquareLength nmax fl = true ↔ 0 ≤ fl ∧ sqLength fl ≤ nmax := by
  simp [validSquareLength]

/-- nextpow2(m) is a power of two, at least m, and the least such (00_scope.md R14). -/
theorem le_nextPow2 (m : Int) : m ≤ (nextPow2 m : Int) := by
  unfold nextPow2
  split
  · simpa
  · have := Nat.lt_log2_self (n := (m - 1).toNat)
    omega

theorem nextPow2_eq_two_pow (m : Int) : ∃ k, nextPow2 m = 2 ^ k := by
  unfold nextPow2
  split
  · exact ⟨0, rfl⟩
  · exact ⟨_, rfl⟩

theorem nextPow2_le {m : Int} {k : Nat} (h : m ≤ ((2 ^ k : Nat) : Int)) : nextPow2 m ≤ 2 ^ k := by
  unfold nextPow2
  split
  · exact Nat.one_le_two_pow
  · have h0 : (m - 1).toNat ≠ 0 := by omega
    have h1 : (m - 1).toNat < 2 ^ k := by omega
    exact Nat.pow_le_pow_right (by decide) ((Nat.log2_lt h0).2 h1)

/-- The elements SQEXT starts from fit its transform length: fl ≤ sq_len(fl) (43_square_extend.md R170). -/
theorem toNat_le_sqLength (fl : Int) : fl.toNat ≤ sqLength fl := by
  have h1 := le_nextPow2 (2 * fl - 1)
  have h2 : 0 < sqLength fl := by
    obtain ⟨k, hk⟩ := nextPow2_eq_two_pow (2 * fl - 1)
    rw [sqLength, hk]; exact Nat.two_pow_pos k
  unfold sqLength at h2 ⊢
  omega

/-- n = 2^k with k ≤ LOG2_NMAX are the valid lengths (41_bit_reversal.md R143). -/
theorem validLength_nmax_iff {c : Config} {n : Int} :
    validLength c.nmax n = true ↔ ∃ k ≤ c.log2Nmax.val, n = ((2 ^ k : Nat) : Int) := by
  rw [validLength_iff]
  constructor
  · rintro ⟨h1, h2, h3⟩
    have h2 : 2 ^ n.toNat.log2 = n.toNat := by simpa [isPow2] using h2
    refine ⟨n.toNat.log2, (Nat.pow_le_pow_iff_right (a := 2) (by decide)).1 ?_, by omega⟩
    rw [h2]; show n.toNat ≤ c.nmax; omega
  · rintro ⟨k, hk, rfl⟩
    have h1 : 1 ≤ 2 ^ k := Nat.one_le_two_pow
    have h2 : 2 ^ k ≤ c.nmax := Nat.pow_le_pow_right (by decide) hk
    refine ⟨by omega, ?_, by omega⟩
    rw [Int.toNat_natCast, isPow2, Nat.log2_two_pow]; simp

/-- A command error: the latch of 60_exceptions.md R203 with the command's own word. -/
theorem raiseError_eq_latched (s : State) (e : ErrorKind) (w : Word32) :
    s.raiseError e w = latched (errorCode e) w s := rfl

theorem commandError_eq (e : ErrorKind) (i : Instr) (s : State) :
    commandError e i s = .next (latched (errorCode e) (encode i) s) := rfl

section InPlace
variable {i : Instr} {b : BufSel} {xn : RegNum} {g : Nat → List FieldElem → List FieldElem} {s : State}

theorem inPlaceCommand_bad (h : validLength s.nmax (s.readS64 xn) = false) :
    inPlaceCommand i b xn g s = .next (latched 2 (encode i) s) := by
  simp [inPlaceCommand, h, commandError_eq, errorCode]

theorem inPlaceCommand_good {a : List FieldElem} (h : validLength s.nmax (s.readS64 xn) = true)
    (ha : s.readCells b (s.readS64 xn).toNat = some a) :
    inPlaceCommand i b xn g s = .next (s.writeCells b (g (s.readS64 xn).toNat a)) := by
  simp [inPlaceCommand, h, ha]

theorem inPlaceCommand_uninit (h : validLength s.nmax (s.readS64 xn) = true)
    (ha : s.readCells b (s.readS64 xn).toNat = none) : inPlaceCommand i b xn g s = .fault .uninitRead := by
  simp [inPlaceCommand, h, ha]

/-- Everything an in-place command can answer. -/
theorem inPlaceCommand_cases (i : Instr) (b : BufSel) (xn : RegNum) (g : Nat → List FieldElem → List FieldElem)
    (s : State) :
    inPlaceCommand i b xn g s = .next (latched 2 (encode i) s) ∨
    inPlaceCommand i b xn g s = .fault .uninitRead ∨
    ∃ a, validLength s.nmax (s.readS64 xn) = true ∧ a.length = (s.readS64 xn).toNat ∧
      s.readCells b (s.readS64 xn).toNat = some a ∧
      inPlaceCommand i b xn g s = .next (s.writeCells b (g (s.readS64 xn).toNat a)) := by
  cases h : validLength s.nmax (s.readS64 xn)
  · exact .inl (inPlaceCommand_bad h)
  · cases ha : s.readCells b (s.readS64 xn).toNat with
    | none => exact .inr (.inl (inPlaceCommand_uninit h ha))
    | some a => exact .inr (.inr ⟨a, rfl, Memory.readRange_length ha, rfl, inPlaceCommand_good h ha⟩)

end InPlace

/-- Reading [0, n) answers when every one of its cells is written (93_implementation_defined.md I3). -/
theorem readCells_isSome {s : State} {b : BufSel} {n : Nat} :
    (s.readCells b n).isSome ↔ ∀ k < n, (s.readCell b k).isSome := by
  have := Memory.readRange_isSome_iff (m := s.buffer b) (start := 0) (n := n)
  simpa [State.readCells, State.readCell] using this

theorem readCells_eq_some {s : State} {b : BufSel} {n : Nat} {a : List FieldElem} :
    s.readCells b n = some a ↔ a.length = n ∧ ∀ k < n, s.readCell b k = a[k]? := by
  have := Memory.readRange_eq_some (m := s.buffer b) (start := 0) (n := n) (vs := a)
  simpa [State.readCells, State.readCell] using this

theorem inPlace_effect {i : Instr} {b : BufSel} {xn : RegNum} {g : Nat → List FieldElem → List FieldElem}
    {s t : State} (hg : ∀ n a, (g n a).length = a.length) (h1 : i ≠ .nop) (h2 : i ≠ .clrerr)
    (hw : ∀ k : Nat, (k : Int) < s.readS64 xn → MayWriteCell i s b k)
    (h : inPlaceCommand i b xn g s = .next t) : CommandEffect i s t := by
  rcases inPlaceCommand_cases i b xn g s with he | he | ⟨a, hv, hl, -, he⟩ <;> rw [he] at h
  · cases h; exact .raises .invalidTransformLength h1 h2
  · cases h
  · cases h
    obtain ⟨hn1, -, hn2⟩ := validLength_iff.1 hv
    refine .writesCells b _ (by rw [hg, hl]; omega) fun k hk => hw k ?_
    rw [hg, hl] at hk; omega

/-- Every next state a command answers is one of the effects listed. -/
theorem exec_effect {i : Instr} {s t : State} (h : exec i s = .next t) : CommandEffect i s t := by
  cases i with
  | nop => cases h; exact .nothing rfl
  | clrerr => cases h; exact .clears rfl
  | fadd fd fa fb => cases h; exact .writesF fd _ rfl
  | fsub fd fa fb => cases h; exact .writesF fd _ rfl
  | fmul fd fa fb => cases h; exact .writesF fd _ rfl
  | fnew fd xs => cases h; exact .writesF fd _ rfl
  | feq xd fa fb => cases h; exact .writesX xd _ rfl
  | fdiv fd fa fb =>
    simp only [exec, execFdiv] at h
    split at h <;> cases h
    · exact .raises .divisionByZero nofun nofun
    · exact .writesF fd _ rfl
  | finv fd fa =>
    simp only [exec, execFinv] at h
    split at h <;> cases h
    · exact .raises .divisionByZero nofun nofun
    · exact .writesF fd _ rfl
  | fpow fd fa xe =>
    simp only [exec, execFpow] at h
    split at h <;> cases h
    · exact .raises .invalidExponent nofun nofun
    · exact .writesF fd _ rfl
  | fld fd b xi =>
    simp only [exec, execFld] at h
    split at h
    · split at h <;> cases h
      exact .writesF fd _ rfl
    · cases h; exact .raises .indexOutOfRange nofun nofun
  | fst fs b xi =>
    simp only [exec, execFst] at h
    split at h <;> cases h
    · obtain ⟨h0, h1⟩ := validIndex_iff.1 ‹_›
      exact .writesCell b _ _ (by omega) ⟨rfl, by omega⟩
    · exact .raises .indexOutOfRange nofun nofun
  | brev b xn =>
    simp only [exec, execBrev] at h
    split at h <;> cases h
    · obtain ⟨h0, -, h1⟩ := validLength_iff.1 ‹_›
      refine .writesCells b _ ?_ fun k hk => ⟨rfl, ?_⟩
      · rw [List.length_map, revTable_length]; omega
      · rw [List.length_map, revTable_length] at hk; omega
    · exact .raises .invalidTransformLength nofun nofun
  | brperm b xn => exact inPlace_effect reorder_length nofun nofun (fun k hk => ⟨rfl, hk⟩) h
  | nttf b xn => exact inPlace_effect (nttCore_length false) nofun nofun (fun k hk => ⟨rfl, hk⟩) h
  | ntti b xn => exact inPlace_effect (nttCore_length true) nofun nofun (fun k hk => ⟨rfl, hk⟩) h
  | sqext tb f xl =>
    simp only [exec, execSqext] at h
    split at h
    · split at h <;> cases h
      rename_i hv _ a ha
      obtain ⟨h0, h1⟩ := validSquareLength_iff.1 hv
      have hl : a.length ≤ sqLength (s.readS64 xl) := by
        rw [Memory.readRange_length ha]; exact toNat_le_sqLength _
      refine .writesBoth f tb _ _ ?_ (squareResult_length hl h1) (fun k hk => .inl ⟨rfl, ?_⟩)
        (fun k hk => .inr ⟨rfl, ?_⟩)
      · rw [squareSpectrum_length hl]; exact h1
      · rwa [squareSpectrum_length hl] at hk
      · rwa [squareResult_length hl h1] at hk
    · cases h; exact .raises .invalidTransformLength nofun nofun

/-- Whether an in-place command stops does not depend on the accesses still to be served. -/
theorem inPlaceCommand_fault_withPending {i : Instr} {b : BufSel} {xn : RegNum}
    {g : Nat → List FieldElem → List FieldElem} {s : State} {e : Fault} (h : inPlaceCommand i b xn g s = .fault e)
    (q : List HostInput) : inPlaceCommand i b xn g { s with pending := q } = .fault e := by
  simp only [inPlaceCommand, State.withPending_nmax, State.withPending_readS64, State.withPending_readCells] at h ⊢
  split at h
  · rw [if_pos ‹_›]; split at h <;> simp_all
  · cases h

/-- Whether a command stops does not depend on the accesses still to be served. -/
theorem exec_fault_withPending {i : Instr} {s : State} {e : Fault} (h : exec i s = .fault e) (q : List HostInput) :
    exec i { s with pending := q } = .fault e := by
  cases i with
  | brperm b xn => exact inPlaceCommand_fault_withPending h q
  | nttf b xn => exact inPlaceCommand_fault_withPending h q
  | ntti b xn => exact inPlaceCommand_fault_withPending h q
  | fld fd b xi =>
    simp only [exec, execFld, State.withPending_nmax, State.withPending_readS64, State.withPending_readCell] at h ⊢
    split at h
    · rw [if_pos ‹_›]; split at h <;> simp_all
    · cases h
  | sqext t f xl =>
    simp only [exec, execSqext, State.withPending_nmax, State.withPending_readS64, State.withPending_readCells] at h ⊢
    split at h
    · rw [if_pos ‹_›]; split at h <;> simp_all
    · cases h
  | fdiv fd fa fb => simp only [exec, execFdiv, commandError] at h; split at h <;> cases h
  | finv fd fa => simp only [exec, execFinv, commandError] at h; split at h <;> cases h
  | fpow fd fa xe => simp only [exec, execFpow, commandError] at h; split at h <;> cases h
  | fst fs b xi => simp only [exec, execFst, commandError] at h; split at h <;> cases h
  | brev b xn => simp only [exec, execBrev, commandError] at h; split at h <;> cases h
  | nop | fadd | fsub | fmul | feq | fnew | clrerr => cases h

end Sys2Proof.Machine
end

