-- ==== Sys2Proof/Laws/Encoding.lean ====
section
/-! SUPPORT. The fields of a command word as arithmetic on its value (30_encoding.md R80), so that a claim about
words is about seven numbers and not about 32 bits. -/

namespace Sys2Proof
open Sys2Proof.Machine

variable (w : Word32)

theorem opcOf_eq : opcOf w = w.toNat / 2 ^ 24 := by
  have := w.isLt
  rw [opcOf, BitVec.extractLsb_toNat, Nat.shiftRight_eq_div_pow]
  omega

theorem rdOf_val : (rdOf w).val = w.toNat / 2 ^ 21 % 8 := by
  rw [rdOf, Fin.val_ofNat, BitVec.extractLsb_toNat, Nat.shiftRight_eq_div_pow]
  omega

theorem rs1Of_val : (rs1Of w).val = w.toNat / 2 ^ 18 % 8 := by
  rw [rs1Of, Fin.val_ofNat, BitVec.extractLsb_toNat, Nat.shiftRight_eq_div_pow]
  omega

theorem rs2Of_val : (rs2Of w).val = w.toNat / 2 ^ 15 % 8 := by
  rw [rs2Of, Fin.val_ofNat, BitVec.extractLsb_toNat, Nat.shiftRight_eq_div_pow]
  omega

theorem bufNumber_bufOfBit (k : Nat) : bufNumber (bufOfBit (w.getLsbD k)) = w.toNat / 2 ^ k % 2 := by
  have h : w.getLsbD k = decide (w.toNat / 2 ^ k % 2 = 1) := by rw [BitVec.getLsbD, Nat.testBit_eq_decide_div_mod_eq]
  have h2 : w.toNat / 2 ^ k % 2 < 2 := Nat.mod_lt _ (by decide)
  rw [h]
  by_cases hb : w.toNat / 2 ^ k % 2 = 1
  · simp [hb, bufOfBit, bufNumber]
  · simp [hb, bufOfBit, bufNumber]
    omega

theorem bufNumber_baOf : bufNumber (baOf w) = w.toNat / 2 ^ 14 % 2 := bufNumber_bufOfBit w 14

theorem bufNumber_bbOf : bufNumber (bbOf w) = w.toNat / 2 ^ 13 % 2 := bufNumber_bufOfBit w 13

/-- A word is the word of format C with its own fields. -/
theorem eq_formatC : w = formatC (opcOf w) (rdOf w).val (rs1Of w).val (rs2Of w).val (bufNumber (baOf w))
    (bufNumber (bbOf w)) (w.toNat % 2 ^ 13) := by
  have := w.isLt
  rw [opcOf_eq, rdOf_val, rs1Of_val, rs2Of_val, bufNumber_baOf, bufNumber_bbOf]
  apply BitVec.eq_of_toNat_eq
  rw [formatC, BitVec.toNat_ofNat]
  omega

variable {w}

/-- A field whose bits all lie in a mask is 0 in a word that the mask clears. -/
theorem field_eq_zero {m : Word32} (h : w &&& m = 0) (lo n : Nat) (hm : ∀ t < n, m.getLsbD (lo + t) = true) :
    w.toNat / 2 ^ lo % 2 ^ n = 0 := by
  apply Nat.eq_of_testBit_eq
  intro t
  rw [Nat.testBit_mod_two_pow, Nat.testBit_div_two_pow, Nat.zero_testBit]
  by_cases ht : t < n
  · have hb : (w &&& m).getLsbD (lo + t) = false := by rw [h]; simp
    rw [BitVec.getLsbD_and, hm t ht, Bool.and_true] at hb
    simpa [ht, BitVec.getLsbD, Nat.add_comm] using hb
  · simp [ht]

theorem checkUnused_ok {used : Word32} {i j : Instr} (h : checkUnused w used i = .ok j) :
    w &&& (0x00FFFFFF &&& ~~~used) = 0 ∧ i = j := by
  unfold checkUnused at h
  split at h
  · exact ⟨‹_›, by injection h⟩
  · cases h

end Sys2Proof
end

