-- ==== Sys2Proof/Laws/PerInstr.lean ====
section
/-! SUPPORT. Statements made per instruction. The family EncodeInTable: the encoder's word of a command lies in the
row of the opcode map (30_encoding.md R84) that bears the command's mnemonic. -/

namespace Sys2Proof.Laws.EncodeInTable

/-- The command's word is admitted by a row of R84 with its mnemonic, and passes both checks on words. -/
def Statement (i : Instr) : Prop :=
  (opcodeTable.any fun r => r.mnemonic == mnemonicOf i && r.admits (encode i)) = true ∧ wellFormedWord (encode i) = true

theorem nop : Statement .nop := by unfold Statement; decide +kernel

theorem fadd (fd fa fb : RegNum) : Statement (.fadd fd fa fb) := by revert fd fa fb; unfold Statement; decide +kernel

theorem fsub (fd fa fb : RegNum) : Statement (.fsub fd fa fb) := by revert fd fa fb; unfold Statement; decide +kernel

theorem fmul (fd fa fb : RegNum) : Statement (.fmul fd fa fb) := by revert fd fa fb; unfold Statement; decide +kernel

theorem fdiv (fd fa fb : RegNum) : Statement (.fdiv fd fa fb) := by revert fd fa fb; unfold Statement; decide +kernel

theorem finv (fd fa : RegNum) : Statement (.finv fd fa) := by revert fd fa; unfold Statement; decide +kernel

theorem fpow (fd fa xe : RegNum) : Statement (.fpow fd fa xe) := by revert fd fa xe; unfold Statement; decide +kernel

theorem feq (xd fa fb : RegNum) : Statement (.feq xd fa fb) := by revert xd fa fb; unfold Statement; decide +kernel

theorem fnew (fd xs : RegNum) : Statement (.fnew fd xs) := by revert fd xs; unfold Statement; decide +kernel

theorem fld (fd : RegNum) (b : BufSel) (xi : RegNum) : Statement (.fld fd b xi) := by
  cases b <;> revert fd xi <;> unfold Statement <;> decide +kernel

theorem fst (fs : RegNum) (b : BufSel) (xi : RegNum) : Statement (.fst fs b xi) := by
  cases b <;> revert fs xi <;> unfold Statement <;> decide +kernel

theorem brev (b : BufSel) (xn : RegNum) : Statement (.brev b xn) := by
  cases b <;> revert xn <;> unfold Statement <;> decide +kernel

theorem brperm (b : BufSel) (xn : RegNum) : Statement (.brperm b xn) := by
  cases b <;> revert xn <;> unfold Statement <;> decide +kernel

theorem nttf (b : BufSel) (xn : RegNum) : Statement (.nttf b xn) := by
  cases b <;> revert xn <;> unfold Statement <;> decide +kernel

theorem ntti (b : BufSel) (xn : RegNum) : Statement (.ntti b xn) := by
  cases b <;> revert xn <;> unfold Statement <;> decide +kernel

theorem sqext (t f : BufSel) (xl : RegNum) : Statement (.sqext t f xl) := by
  cases t <;> cases f <;> revert xl <;> unfold Statement <;> decide +kernel

theorem clrerr : Statement .clrerr := by unfold Statement; decide +kernel

end Sys2Proof.Laws.EncodeInTable
end

