-- ==== Sys2Proof/Laws/Port.lean ====
section
/-! SUPPORT. The host port: what each offset names (20_memory.md R50), and what serving an access can do, said
once. -/

namespace Sys2Proof.Machine

section Offsets
variable {nmax : Nat} {a : Word32}

theorem portLoc_freg (i : RegNum) (ha : a.toNat = 0x100 + 4 * i.val) : portLoc nmax a = some (.freg i) := by
  have hi := i.isLt
  unfold portLoc
  simp only [ha]
  rw [if_neg (by omega), if_neg (by omega), if_pos (by omega), show (0x100 + 4 * i.val - 0x100) / 4 = i.val by omega,
    Fin.ofNat_eq_cast, Fin.cast_val_eq_self]

theorem portLoc_xlo (i : RegNum) (ha : a.toNat = 0x200 + 8 * i.val) : portLoc nmax a = some (.xlo i) := by
  have hi := i.isLt
  unfold portLoc
  simp only [ha]
  rw [if_neg (by omega), if_neg (by omega), if_neg (by omega), if_neg (by omega), if_pos (by omega),
    if_pos (by omega), show (0x200 + 8 * i.val - 0x200) / 8 = i.val by omega, Fin.ofNat_eq_cast, Fin.cast_val_eq_self]

theorem portLoc_xhi (i : RegNum) (ha : a.toNat = 0x204 + 8 * i.val) : portLoc nmax a = some (.xhi i) := by
  have hi := i.isLt
  unfold portLoc
  simp only [ha]
  rw [if_neg (by omega), if_neg (by omega), if_neg (by omega), if_neg (by omega), if_pos (by omega),
    if_neg (by omega), show (0x204 + 8 * i.val - 0x200) / 8 = i.val by omega, Fin.ofNat_eq_cast, Fin.cast_val_eq_self]

theorem portLoc_cell (hn : nmax ≤ 2 ^ 23) {b : BufSel} {k : Nat} (hk : k < nmax)
    (ha : a.toNat = windowBase b + 4 * k) : portLoc nmax a = some (.cell b k) := by
  unfold portLoc
  have hb : windowBase b = 0x02000000 ∨ windowBase b = 0x04000000 := by cases b <;> simp [windowBase]
  simp only [ha]
  rw [if_neg (by omega), if_neg (by omega), if_neg (by omega), if_neg (by omega), if_neg (by omega)]
  cases b with
  | buf0 =>
    rw [windowLoc, if_pos (by omega), show (windowBase .buf0 + 4 * k - windowBase .buf0) / 4 = k by omega]; rfl
  | buf1 =>
    have h0 : windowBase .buf0 = 0x02000000 := rfl
    have h1 : windowBase .buf1 = 0x04000000 := rfl
    rw [windowLoc, if_neg (by omega), windowLoc, if_pos (by omega),
      show (windowBase .buf1 + 4 * k - windowBase .buf1) / 4 = k by omega]; rfl

/-- Where the offset of a named location stands in the map (20_memory.md R50). -/
def offsetOf : PortLoc → Nat
  | .id => 0x000
  | .status => 0x004
  | .errinfo => 0x008
  | .config => 0x00C
  | .prime => 0x010
  | .root => 0x014
  | .cmd => 0x020
  | .freg i => 0x100 + 4 * i.val
  | .xlo i => 0x200 + 8 * i.val
  | .xhi i => 0x204 + 8 * i.val
  | .cell b k => windowBase b + 4 * k

theorem controlLoc_offset {n : Nat} {loc : PortLoc} (h : controlLoc n = some loc) : n = offsetOf loc := by
  unfold controlLoc at h
  split at h <;> cases h <;> rfl

theorem windowLoc_offset {n : Nat} {b : BufSel} {loc : PortLoc} (h4 : n % 4 = 0) (h : windowLoc nmax n b = some loc) :
    ∃ k < nmax, loc = .cell b k ∧ n = windowBase b + 4 * k := by
  unfold windowLoc at h
  have hb : windowBase b = 0x02000000 ∨ windowBase b = 0x04000000 := by cases b <;> simp [windowBase]
  split at h <;> cases h
  exact ⟨_, by omega, rfl, by omega⟩

/-- An offset that names a location stands where the map puts it, and a cell it names is below NMAX. -/
theorem portLoc_offset {loc : PortLoc} (h : portLoc nmax a = some loc) :
    a.toNat = offsetOf loc ∧ ∀ b k, loc = .cell b k → k < nmax := by
  unfold portLoc at h
  dsimp only at h
  split at h
  · cases h
  split at h
  · exact ⟨controlLoc_offset h, fun b k hl => by subst hl; unfold controlLoc at h; split at h <;> cases h⟩
  split at h
  · cases h
    refine ⟨?_, nofun⟩
    simp only [offsetOf, Fin.ofNat]
    omega
  split at h
  · cases h
  split at h
  · split at h <;> cases h <;> refine ⟨?_, nofun⟩ <;> simp only [offsetOf, Fin.ofNat] <;> omega
  · cases h0 : windowLoc nmax a.toNat .buf0 with
    | some l =>
      rw [h0] at h; cases h
      obtain ⟨k, hk, rfl, hn⟩ := windowLoc_offset (by omega) h0
      exact ⟨hn, fun b k' hl => by cases hl; exact hk⟩
    | none =>
      rw [h0] at h
      obtain ⟨k, hk, rfl, hn⟩ := windowLoc_offset (by omega) (show windowLoc nmax a.toNat .buf1 = some loc from h)
      exact ⟨hn, fun b k' hl => by cases hl; exact hk⟩

end Offsets

/-- Every next state of serving one input (20_memory.md R52, R53; 60_exceptions.md R204). -/
inductive ServeEffect (e : HostInput) (s : State) : State → Prop where
  | resets : e = .reset → ServeEffect e s s.resetUnit
  | replies (a v : Word32) : e = .read a → ServeEffect e s (s.reply v)
  | badRead (a : Word32) : e = .read a → ServeEffect e s ((s.raiseError .hostAccess a).reply 0)
  | badWrite (a v : Word32) : e = .write a v → ServeEffect e s (s.raiseError .hostAccess a)
  | storesF (a v : Word32) (i : RegNum) (u : FieldElem) : e = .write a v → ServeEffect e s (s.writeF i u)
  | storesX (a v : Word32) (i : RegNum) (u : Word64) : e = .write a v → ServeEffect e s (s.writeX i u)
  | storesCell (a v : Word32) (b : BufSel) (k : Nat) (u : FieldElem) :
      e = .write a v → k < s.nmax → ServeEffect e s (s.writeCell b k u)
  | discards (v : Word32) : e = .write cmdOffset v → s.err ≠ 0 → v ≠ clrerrWord → ServeEffect e s s
  | unblocks : e = .write cmdOffset clrerrWord → s.err ≠ 0 → ServeEffect e s s.clearError
  | illegal (v : Word32) :
      e = .write cmdOffset v → s.err = 0 → ServeEffect e s (s.raiseError .illegalCommand v)
  | command (v : Word32) (i : Instr) (t : State) :
      e = .write cmdOffset v → s.err = 0 → decode v = .ok i → CommandEffect i s t → ServeEffect e s t

theorem hostRead_effect {a : Word32} {s t : State} (h : hostRead a s = .next t) : ServeEffect (.read a) s t := by
  unfold hostRead at h
  split at h
  case h_10 b k _ => split at h <;> cases h; exact .replies a _ rfl
  all_goals cases h
  all_goals first
    | exact .badRead a rfl
    | exact .replies a _ rfl

theorem issueCommand_effect {v : Word32} {s t : State} (h : issueCommand v s = .next t) :
    ServeEffect (.write cmdOffset v) s t := by
  unfold issueCommand at h
  split at h
  · split at h <;> cases h
    · subst_vars; exact .unblocks rfl ‹_›
    · exact .discards v rfl ‹_› ‹_›
  · have he : s.err = 0 := not_not.1 ‹_›
    split at h
    · exact .command v _ t rfl he ‹_› (exec_effect h)
    · cases h; exact .illegal v rfl he

/-- CMD stands at one offset only (20_memory.md R50). -/
theorem eq_cmdOffset {nmax : Nat} {a : Word32} (h : portLoc nmax a = some .cmd) : a = cmdOffset :=
  BitVec.eq_of_toNat_eq (portLoc_offset h).1

theorem hostWrite_effect {a v : Word32} {s t : State} (h : hostWrite a v s = .next t) :
    ServeEffect (.write a v) s t := by
  unfold hostWrite at h
  split at h
  case h_1 hl => rw [eq_cmdOffset hl]; exact issueCommand_effect h
  case h_5 b k hl => cases h; exact .storesCell a v b k _ rfl ((portLoc_offset hl).2 b k rfl)
  all_goals cases h
  all_goals first
    | exact .storesF a v _ _ rfl
    | exact .storesX a v _ _ rfl
    | exact .badWrite a v rfl

theorem serve_effect {e : HostInput} {s t : State} (h : serve e s = .next t) : ServeEffect e s t := by
  cases e with
  | read a => exact hostRead_effect h
  | write a v => exact hostWrite_effect h
  | reset => cases h; exact .resets rfl

/-- A step with nothing pending changes nothing; any other serves the oldest input. -/
theorem step_effect {s t : State} (h : step s = .next t) :
    (s.pending = [] ∧ t = s) ∨
    ∃ e rest, s.pending = e :: rest ∧ ServeEffect e { s with pending := rest } t := by
  unfold step serveNext at h
  cases hp : s.pending with
  | nil => rw [hp] at h; cases h; exact .inl ⟨rfl, rfl⟩
  | cons e rest => rw [hp] at h; exact .inr ⟨e, rest, rfl, serve_effect h⟩

theorem step_idle {s : State} (h : s.pending = []) : step s = .next s := by
  unfold step serveNext; rw [h]

theorem step_serve {s : State} {e : HostInput} {rest : List HostInput} (h : s.pending = e :: rest) :
    step s = serve e { s with pending := rest } := by
  unfold step serveNext; rw [h]

/-- A step with a host read next serves it. -/
theorem step_read {s : State} {a : Word32} {rest : List HostInput} (hp : s.pending = .read a :: rest) :
    step s = hostRead a { s with pending := rest } := step_serve hp

/-- A step with a host write next serves it. -/
theorem step_write {s : State} {a v : Word32} {rest : List HostInput} (hp : s.pending = .write a v :: rest) :
    step s = hostWrite a v { s with pending := rest } := step_serve hp

/-- A write to CMD on a unit that is not blocked runs the command its word decodes to (60_exceptions.md R204). -/
theorem step_command {s : State} {w : Word32} {rest : List HostInput} {i : Instr}
    (hp : s.pending = .write cmdOffset w :: rest) (he : s.err = 0) (hw : decode w = .ok i) :
    step s = exec i { s with pending := rest } := by
  rw [step_write hp]
  change issueCommand w _ = _
  simp [issueCommand, he, hw]

/-- A run continues from the next state of its first step. -/
theorem core_run_next {s t : State} (h : step s = .next t) (n : Nat) :
    Sys2Proof.core.run (n + 1) s = Sys2Proof.core.run n t := by
  have hs : Sys2Proof.core.step s = .next t := h
  rw [Host.Core.run.eq_2 Sys2Proof.core s n, hs]

/-- A fault ends a run. -/
theorem core_run_fault {s : State} {r : Fault} (h : step s = .fault r) (n : Nat) :
    Sys2Proof.core.run (n + 1) s = .fault r := by
  have hs : Sys2Proof.core.step s = .fault r := h
  rw [Host.Core.run.eq_2 Sys2Proof.core s n, hs]

/-- A command that stops with UninitRead also ends the run that issues it. -/
theorem stopsUninit_of_exec {i : Instr} {s : State} (h : exec i s = .fault .uninitRead) : StopsUninit i s :=
  ⟨h, fun _ rest hp he hw =>
    have hs := (step_command hp he hw).trans (exec_fault_withPending h rest)
    ⟨hs, core_run_fault hs⟩⟩

/-! ### The words and halves of the port (20_memory.md R56 to R58) -/

theorem withLowHalf_toNat (x : Word64) (v : Word32) :
    (withLowHalf x v).toNat = x.toNat / 2 ^ 32 * 2 ^ 32 + v.toNat := by
  have h : (withLowHalf x v).toNat = (x.extractLsb 63 32).toNat <<< 32 ||| v.toNat := BitVec.toNat_append _ _
  have hx := x.isLt
  rw [h, ← Nat.shiftLeft_add_eq_or_of_lt v.isLt, Nat.shiftLeft_eq, BitVec.extractLsb_toNat, Nat.shiftRight_eq_div_pow]
  omega

theorem withHighHalf_toNat (x : Word64) (v : Word32) :
    (withHighHalf x v).toNat = v.toNat * 2 ^ 32 + x.toNat % 2 ^ 32 := by
  have h : (withHighHalf x v).toNat = v.toNat <<< 32 ||| (x.extractLsb 31 0).toNat := BitVec.toNat_append _ _
  rw [h, BitVec.extractLsb_toNat, Nat.shiftRight_zero, ← Nat.shiftLeft_add_eq_or_of_lt (Nat.mod_lt _ (by decide)),
    Nat.shiftLeft_eq]

theorem extract_withLowHalf (x : Word64) (v : Word32) : (withLowHalf x v).extractLsb 31 0 = v := by
  apply BitVec.eq_of_toNat_eq
  rw [BitVec.extractLsb_toNat, withLowHalf_toNat]
  have := v.isLt
  omega

theorem extract_withHighHalf (x : Word64) (v : Word32) : (withHighHalf x v).extractLsb 63 32 = v := by
  apply BitVec.eq_of_toNat_eq
  rw [BitVec.extractLsb_toNat, withHighHalf_toNat, Nat.shiftRight_eq_div_pow]
  have := v.isLt
  omega

@[simp] theorem fieldWord_toNat (v : FieldElem) : (fieldWord v).toNat = v.val := by
  have := v.isLt
  simp only [fieldWord, BitVec.toNat_ofNat]
  unfold P at *
  omega

end Sys2Proof.Machine
end

