-- ==== Sys2Proof/Tests/Slice0.lean ====
section
/-! SUPPORT. Tests. The expected results come from the spec: the words from 30_encoding.md R80 to R88, the values
from 95_test_vectors.md (L2.1 row 4 is cited as "L2.1 #4"). Each test checks one or two fields after one step. -/

namespace Sys2Proof.Tests
open Sys2Proof.Machine

/-! ### Helpers -/

/-- The outcome is a next state with this property. -/
def onNext (r : Result) (q : State → Bool) : Bool :=
  match r with
  | .next t => q t
  | _ => false

/-- The outcome is the fault UninitRead. -/
def faults (r : Result) : Bool :=
  match r with
  | .fault .uninitRead => true
  | _ => false

/-- The host writes a word to CMD, and the unit serves it. -/
def issue (w : Nat) (s : State) : Result := step (s.withFetchWord 32 w)

/-- The host makes one access, and the unit serves it. -/
def access (e : HostInput) (s : State) : Result := step { s with pending := [e] }

/-- The reset state with F0 and F1 set. -/
def withF01 (a b : FieldElem) : State := (State.reset.writeF 0 a).writeF 1 b

/-- The reset state with X0 set. -/
def withX0 (n : Int) : State := State.reset.writeX 0 (BitVec.ofInt 64 n)

/-- The reset state with X0 set and the elements in BUF0 from index 0 upward. -/
def withCells (n : Int) (vs : List FieldElem) : State := (withX0 n).writeCells .buf0 vs

/-- A blocked unit: DIVISION_BY_ZERO is latched. -/
def blocked : State := { State.reset with err := 1, errinfo := 0x05040000 }

/-- A unit of LOG2_NMAX = 0 whose buffers are fully written. -/
def tiny : State := ((State.resetWith ⟨0⟩).writeCell .buf0 0 7).writeCell .buf1 0 9

/-- ERR and ERRINFO hold these values. -/
def latch (err : BitVec 4) (info : Word32) (t : State) : Bool := t.err == err && t.errinfo == info

/-- The cells of a buffer from index 0 upward hold these elements. -/
def cellsAre (b : BufSel) (vs : List FieldElem) (t : State) : Bool := t.readCells b vs.length == some vs

/-! ### Well-formed words: each check refuses an ill-formed word -/

/-- Check 1, the opcode is assigned: 0x0B, 0x0F, 0x15, 0x1F, 0x21 and 0xFF are reserved (R85; L2.2 #5 to #7). -/
theorem test_wellFormed_reservedOpcode :
    ([0x0B000000, 0x0F000000, 0x15000000, 0x1F000000, 0x21000000, 0xFF000000] : List Word32).all
      (fun w => !opcodeAssigned w && !wellFormedWord w && decode w == .error .reservedOpcode) = true := by decide

/-- Check 2, the unused bits are zero (R83; L2.2 #3, #4, #8 to #15). -/
theorem test_wellFormed_mustBeZero :
    ([0x01408001, 0x05048000, 0x00000001, 0x20000001, 0x12200000, 0x12002000, 0x14200000, 0x0A200000, 0x09002000,
      0x07004000] : List Word32).all
      (fun w => opcodeAssigned w && !mustZeroClear w && !wellFormedWord w && decode w == .error .mustBeZero) = true := by
  decide

/-- Both checks accept every worked encoding of R88. -/
theorem test_wellFormed_accepts :
    ([0x01408000, 0x04408000, 0x06678000, 0x14002000, 0x13084000, 0x00000000, 0x20000000] : List Word32).all
      wellFormedWord = true := by decide

/-! ### Decoding: words written out field by field, OPC RD RS1 RS2 BA BB RSV -/

theorem test_decode_nop : decode 0b00000000_000_000_000_0_0_0000000000000 = .ok .nop := by decide
theorem test_decode_fadd : decode 0b00000001_010_000_001_0_0_0000000000000 = .ok (.fadd 2 0 1) := by decide
theorem test_decode_fsub : decode 0b00000010_111_001_100_0_0_0000000000000 = .ok (.fsub 7 1 4) := by decide
theorem test_decode_fmul : decode 0b00000011_001_110_011_0_0_0000000000000 = .ok (.fmul 1 6 3) := by decide
theorem test_decode_fdiv : decode 0b00000100_010_000_001_0_0_0000000000000 = .ok (.fdiv 2 0 1) := by decide
theorem test_decode_finv : decode 0b00000101_000_001_000_0_0_0000000000000 = .ok (.finv 0 1) := by decide
theorem test_decode_fpow : decode 0b00000110_011_001_111_0_0_0000000000000 = .ok (.fpow 3 1 7) := by decide
theorem test_decode_feq : decode 0b00000111_100_010_101_0_0_0000000000000 = .ok (.feq 4 2 5) := by decide
theorem test_decode_fnew : decode 0b00001000_000_001_000_0_0_0000000000000 = .ok (.fnew 0 1) := by decide
theorem test_decode_fld : decode 0b00001001_001_010_000_1_0_0000000000000 = .ok (.fld 1 .buf1 2) := by decide
theorem test_decode_fst : decode 0b00001010_000_010_100_1_0_0000000000000 = .ok (.fst 4 .buf1 2) := by decide
theorem test_decode_brev : decode 0b00010000_000_011_000_1_0_0000000000000 = .ok (.brev .buf1 3) := by decide
theorem test_decode_brperm : decode 0b00010001_000_110_000_0_0_0000000000000 = .ok (.brperm .buf0 6) := by decide
theorem test_decode_nttf : decode 0b00010010_000_010_000_1_0_0000000000000 = .ok (.nttf .buf1 2) := by decide
theorem test_decode_ntti : decode 0b00010011_000_010_000_1_0_0000000000000 = .ok (.ntti .buf1 2) := by decide
theorem test_decode_sqext : decode 0b00010100_000_101_000_0_1_0000000000000 = .ok (.sqext .buf1 .buf0 5) := by decide
theorem test_decode_clrerr : decode 0b00100000_000_000_000_0_0_0000000000000 = .ok .clrerr := by decide

/-! ### Field arithmetic (L2.1) -/

/-- L2.1 #1. -/
theorem test_fadd_wraps :
    onNext (issue 0x01408000 (withF01 998244352 998244352)) (fun t => t.readF 2 == 998244351) = true := by decide
/-- L2.1 #4: destination and both sources are one register. -/
theorem test_fadd_in_place :
    onNext (issue 0x01000000 (withF01 500000000 0)) (fun t => t.readF 0 == 1755647) = true := by decide
/-- L2.1 #5. -/
theorem test_fsub_borrows :
    onNext (issue 0x02408000 (withF01 0 1)) (fun t => t.readF 2 == 998244352) = true := by decide
/-- L2.1 #7. -/
theorem test_fsub_order :
    onNext (issue 0x02408000 (withF01 0 998244352)) (fun t => t.readF 2 == 1) = true := by decide
/-- L2.1 #10. -/
theorem test_fmul_exact :
    onNext (issue 0x03408000 (withF01 123456789 987654321)) (fun t => t.readF 2 == 263684735) = true := by decide
/-- L2.1 #12. -/
theorem test_fdiv_quotient :
    onNext (issue 0x04408000 (withF01 7 8)) (fun t => t.readF 2 == 124780545) = true := by decide +kernel
/-- L2.1 #16: 0 / 0 is DIVISION_BY_ZERO too, and F2 is kept. -/
theorem test_fdiv_by_zero :
    onNext (issue 0x04408000 ((withF01 0 0).writeF 2 99)) (fun t => latch 1 0x04408000 t && t.readF 2 == 99) = true := by
  decide
/-- L2.1 #21: in place. -/
theorem test_finv_in_place :
    onNext (issue 0x05240000 (withF01 0 8)) (fun t => t.readF 1 == 873463809) = true := by decide +kernel
/-- L2.1 #22. -/
theorem test_finv_of_zero :
    onNext (issue 0x05040000 (withF01 42 0)) (fun t => latch 1 0x05040000 t && t.readF 0 == 42) = true := by decide
/-- L2.1 #29: the largest exponent. -/
theorem test_fpow_largest_exponent :
    onNext (issue 0x06678000 ((withF01 0 2).writeX 7 0x7FFFFFFFFFFFFFFF)) (fun t => t.readF 3 == 649870436) = true := by
  decide +kernel
/-- L2.1 #32: exponents are signed. -/
theorem test_fpow_negative_exponent :
    onNext (issue 0x06678000 ((withF01 0 2).writeX 7 0xFFFFFFFFFFFFFFFF)) (latch 4 0x06678000) = true := by decide
/-- L2.1 #33. -/
theorem test_feq_equal :
    onNext (issue 0x07008000 (withF01 5 5)) (fun t => t.readX 0 == 1) = true := by decide
/-- L2.1 #34: all 64 bits are written. -/
theorem test_feq_clears_all_bits :
    onNext (issue 0x07008000 ((withF01 5 6).writeX 0 0xFFFFFFFFFFFFFFFF)) (fun t => t.readX 0 == 0) = true := by decide
/-- L2.1 #36. -/
theorem test_fnew_negative :
    onNext (issue 0x08040000 (State.reset.writeX 1 0xFFFFFFFFFFFFFFFF)) (fun t => t.readF 0 == 998244352) = true := by
  decide
/-- L2.1 #40: the most negative integer. -/
theorem test_fnew_most_negative :
    onNext (issue 0x08040000 (State.reset.writeX 1 0x8000000000000000)) (fun t => t.readF 0 == 532218398) = true := by
  decide
/-- L2.1 #43: the last index, in BUF1. -/
theorem test_fld_last_index :
    onNext (issue 0x09284000 ((State.reset.writeX 2 31).writeCell .buf1 31 77)) (fun t => t.readF 1 == 77) = true := by
  decide
/-- L2.1 #44. -/
theorem test_fld_out_of_range :
    onNext (issue 0x09280000 ((State.reset.writeX 2 32).writeF 1 5)) (fun t => latch 5 0x09280000 t && t.readF 1 == 5)
      = true := by decide
/-- L2.1 #47. -/
theorem test_fst_stores :
    onNext (issue 0x0A024000 (State.reset.writeF 4 9)) (fun t => t.readCell .buf1 0 == some 9) = true := by decide
/-- L2.1 #48. -/
theorem test_fst_out_of_range :
    onNext (issue 0x0A024000 ((withX0 32).writeF 4 9)) (fun t => latch 5 0x0A024000 t && t.buf1 == []) = true := by decide

/-! ### Buffer commands (L2.3 to L2.5) -/

/-- L2.3 #4. -/
theorem test_brev_eight :
    onNext (issue 0x10004000 (withX0 8)) (cellsAre .buf1 [0, 4, 2, 6, 1, 5, 3, 7]) = true := by decide
/-- L2.3 #8. -/
theorem test_brev_bad_length : onNext (issue 0x10004000 (withX0 3)) (latch 2 0x10004000) = true := by decide
/-- L2.3 #13. -/
theorem test_brperm_four :
    onNext (issue 0x11000000 (withCells 4 [10, 11, 12, 13, 14])) (cellsAre .buf0 [10, 12, 11, 13, 14]) = true := by decide
/-- L2.3 #18. -/
theorem test_brperm_uninit : faults (issue 0x11000000 (withX0 4)) = true := by decide
/-- L2.4 #8. -/
theorem test_nttf_eight :
    onNext (issue 0x12000000 (withCells 8 [1, 2, 3, 4, 5, 6, 7, 8]))
      (cellsAre .buf0 [36, 894301004, 346334868, 201631260, 998244349, 796613085, 651909477, 103943341]) = true := by
  decide +kernel
/-- L2.4 #1: n = 1, and no cell from n upward is read or written. -/
theorem test_nttf_one :
    onNext (issue 0x12000000 (withCells 1 [5])) (fun t => t.buf0 == [(0, 5)]) = true := by decide
/-- L2.4 #15. -/
theorem test_ntti_four :
    onNext (issue 0x13000000 (withCells 4 [10, 998244351, 998244349, 2]))
      (cellsAre .buf0 [499122178, 412538462, 499122178, 585705898]) = true := by decide +kernel
/-- L2.4 #18. -/
theorem test_ntti_bad_length : onNext (issue 0x13000000 (withX0 (-16))) (latch 2 0x13000000) = true := by decide
/-- L2.5 #2. -/
theorem test_sqext_square :
    onNext (issue 0x14002000 (withCells 3 [1, 2, 3]))
      (fun t => cellsAre .buf1 ([1, 4, 10, 12, 9] ++ List.replicate 27 0) t &&
        cellsAre .buf0 [6, 485306495, 825076915, 238954792, 2, 991679905, 173167434, 280547518] t) = true := by
  decide +kernel
/-- L2.5 #10: one coefficient more than NMAX allows. -/
theorem test_sqext_too_long : onNext (issue 0x14002000 (withX0 17)) (latch 2 0x14002000) = true := by decide

/-! ### Control, the host port and reset (L2.2, L2.6, L2.7) -/

/-- L2.2 #1. -/
theorem test_nop_changes_nothing : onNext (issue 0x00000000 (withF01 1 2)) (· == withF01 1 2) = true := by decide
/-- L2.6 #7. -/
theorem test_clrerr_clears : onNext (issue 0x20000000 blocked) (latch 0 0) = true := by decide
/-- L2.6 #4: a stray bit is discarded while blocked. -/
theorem test_clrerr_stray_bit : onNext (issue 0x20000001 blocked) (· == blocked) = true := by decide
/-- L2.6 #6: a command is discarded while blocked. -/
theorem test_blocked_discards : onNext (issue 0x01690000 blocked) (· == blocked) = true := by decide
/-- L2.2: an illegal word beats an operand error. -/
theorem test_illegal_before_operands : onNext (issue 0x12200000 (withX0 12)) (latch 3 0x12200000) = true := by decide
/-- L2.7 #1. -/
theorem test_port_constants :
    ([(0x000, 0x4D464155), (0x00C, 5), (0x010, 0x3B800001), (0x014, 3)] : List (Word32 × Word32)).all
      (fun p => onNext (access (.read p.1) State.reset) (fun t => t.replies == [p.2])) = true := by decide
/-- L2.7 #4: a misaligned read returns 0 and latches HOST_ACCESS. -/
theorem test_port_misaligned :
    onNext (access (.read 0x102) State.reset) (fun t => latch 6 0x102 t && t.replies == [0]) = true := by decide
/-- L2.7 #9: the tail of a window is unmapped. -/
theorem test_port_window_tail :
    onNext (access (.write 0x02000080 1) State.reset) (fun t => latch 6 0x02000080 t && t.buf0 == []) = true := by decide
/-- L2.7 #11. -/
theorem test_port_field_reduces :
    onNext (access (.write 0x10C 0xFFFFFFFF) State.reset) (fun t => t.readF 3 == 301989883) = true := by decide
/-- L2.7 #16. -/
theorem test_port_high_half :
    onNext (access (.write 0x22C 0xAABBCCDD) (State.reset.writeX 5 0x1122334455667788))
      (fun t => t.readX 5 == 0xAABBCCDD55667788) = true := by decide
/-- L2.7 #18. -/
theorem test_port_uninit : faults (access (.read 0x02000000) State.reset) = true := by decide
/-- R230: a reset gives the reset state again. -/
theorem test_reset_restores : onNext (access .reset (blocked.writeF 3 9)) (· == State.reset) = true := by decide

/-! ### Witnesses: for each statement with hypotheses, concrete data that meets them, clause by clause -/

/-- The outcome is a next state that differs in the error latch from this state. -/
def latchesNew (s : State) (r : Result) : Bool := onNext r fun t => t.err != s.err || t.errinfo != s.errinfo

/-- A state with one access pending. -/
def pending (e : HostInput) (s : State) : State := { s with pending := [e] }

theorem onNext_true {r : Result} {q : State → Bool} (h : onNext r q = true) : ∃ t, r = .next t ∧ q t = true := by
  cases r with
  | next t => exact ⟨t, rfl, h⟩
  | fault _ => cases h
  | refused _ => cases h

/-- The boundary words of each clause of `IllegalWord`, on a unit that is not blocked and on one that is. -/
theorem witness_IllegalWordsRaise :
    (IllegalWord 0x0B000000 ∧ IllegalWord 0x0FFFFFFF) ∧ (IllegalWord 0x15000000 ∧ IllegalWord 0x1FFFFFFF) ∧
    (IllegalWord 0x21000000 ∧ IllegalWord 0xFFFFFFFF) ∧
    (IllegalWord 0x00000001 ∧ IllegalWord 0x20000001 ∧ IllegalWord 0x01408001 ∧ IllegalWord 0x14200000) ∧
    (pending (.write 0x020 0x0B000000) State.reset).pending = .write 0x020 0x0B000000 :: [] ∧
    State.reset.err = 0 ∧ blocked.err ≠ 0 :=
  ⟨⟨.inl (by decide), .inl (by decide)⟩, ⟨.inr (.inl (by decide)), .inr (.inl (by decide))⟩,
    ⟨.inr (.inr (.inl (by decide))), .inr (.inr (.inl (by decide)))⟩,
    ⟨.inr (.inr (.inr (by decide))), .inr (.inr (.inr (by decide))), .inr (.inr (.inr (by decide))),
      .inr (.inr (.inr (by decide)))⟩, by decide, by decide, by decide⟩

/-- A blocked unit with CLRERR and with a stray bit; a unit that is not blocked with an illegal and a legal word. -/
theorem witness_CommandWriteIsIssued :
    blocked.err ≠ 0 ∧ (0x20000001 : Word32) ≠ 0x20000000 ∧ State.reset.err = 0 ∧
    decode 0x0B000000 = .error .reservedOpcode ∧ decode 0x01408000 = .ok (.fadd 2 0 1) ∧
    (pending (.write 0x020 0x01408000) State.reset).pending = .write 0x020 0x01408000 :: [] := by decide

/-- A word of each of the two opcodes with a bit set; a blocked unit with CLRERR, and with NOP. -/
theorem witness_NopAndClrerrResults :
    (0x00000001 : Word32).toNat / 2 ^ 24 = 0x00 ∧ (0x20800000 : Word32).toNat / 2 ^ 24 = 0x20 ∧
    (0x00000001 : Word32) ≠ 0x00000000 ∧ (0x20800000 : Word32) ≠ 0x20000000 ∧ blocked.err ≠ 0 ∧
    (pending (.write 0x020 0x20000000) blocked).pending = .write 0x020 0x20000000 :: [] ∧
    (pending (.write 0x020 0x00000000) blocked).pending = .write 0x020 0x00000000 :: [] := by decide

theorem witness_DivideResult :
    (withF01 7 0).readF 1 = 0 ∧ (withF01 7 998244352).readF 1 ≠ 0 ∧ (withF01 7 1).readF 1 ≠ 0 := by decide

theorem witness_InverseResult : (withF01 0 0).readF 1 = 0 ∧ (withF01 0 998244352).readF 1 ≠ 0 := by decide

/-- Exponents 0 and -2^63; 1 and 2^63 - 1. -/
theorem witness_PowerResult :
    (withX0 0).readS64 0 < 1 ∧ (withX0 (-2 ^ 63)).readS64 0 < 1 ∧ 1 ≤ (withX0 1).readS64 0 ∧
    1 ≤ (withX0 (2 ^ 63 - 1)).readS64 0 := by decide

theorem witness_InverseAndQuotientLaws :
    (withF01 7 8).readF 1 ≠ 0 ∧ onNext (exec (.finv 2 1) (withF01 7 8)) (fun _ => true) = true ∧
    onNext (exec (.fdiv 2 0 1) (withF01 7 8)) (fun _ => true) = true ∧ (124780545 * 8) % P = 7 := by decide

/-- Exponent 1, base 0, exponent P - 1 and exponent P - 2. -/
theorem witness_PowerCornerCases :
    (∀ e ∈ ([1, 998244352, 998244351] : List Int), onNext (exec (.fpow 2 1 0) ((withX0 e).writeF 1 3)) (fun _ => true)) ∧
    (withX0 1).readS64 0 = 1 ∧ (withX0 998244352).readS64 0 = (P : Int) - 1 ∧
    (withX0 998244351).readS64 0 = (P : Int) - 2 ∧ ((withX0 1).writeF 1 3).readF 1 ≠ 0 ∧ (withX0 1).readF 1 = 0 ∧
    onNext (exec (.finv 2 1) ((withX0 1).writeF 1 3)) (fun _ => true) = true := by decide

/-- Indices -1 and NMAX; 0 and NMAX - 1, one cell written and one not. -/
theorem witness_LoadResult :
    (withX0 (-1)).readS64 0 < 0 ∧ ((withX0 32).nmax : Int) ≤ (withX0 32).readS64 0 ∧
    (withCells 0 [4]).readS64 0 = 0 ∧ (withCells 0 [4]).readCell .buf0 0 = some 4 ∧
    (withX0 31).readS64 0 = 31 ∧ (31 : Int) < ((withX0 31).nmax : Int) ∧ (withX0 31).readCell .buf0 31 = none := by
  decide

theorem witness_StoreResult :
    (withX0 (-1)).readS64 0 < 0 ∧ ((withX0 32).nmax : Int) ≤ (withX0 32).readS64 0 ∧ (withX0 0).readS64 0 = 0 ∧
    (withX0 31).readS64 0 = 31 ∧ (31 : Int) < ((withX0 31).nmax : Int) := by decide

/-- Lengths 2^0 and 2^LOG2_NMAX; the bad lengths 0, 3, 2·NMAX and -1. -/
theorem witness_BitReversalTable :
    (withX0 1).readS64 0 = 2 ^ 0 ∧ (withX0 32).readS64 0 = 2 ^ (withX0 32).cfg.log2Nmax.val ∧
    ∀ n ∈ ([0, 3, 64, -1] : List Int), ∀ L ≤ (withX0 n).cfg.log2Nmax.val, (withX0 n).readS64 0 ≠ 2 ^ L := by
  decide +kernel

theorem witness_BrevReversesBits :
    (withX0 32).readS64 0 = 2 ^ 5 ∧ 5 ≤ (withX0 32).cfg.log2Nmax.val ∧ (∃ t, exec (.brev .buf0 0) (withX0 32) = .next t) ∧
    (31 < 2 ^ 5 ∧ 4 < 5) := by
  refine ⟨by decide, by decide, ?_, by decide⟩
  have h : onNext (exec (.brev .buf0 0) (withX0 32)) (fun _ => true) = true := by decide +kernel
  obtain ⟨t, ht, _⟩ := onNext_true h
  exact ⟨t, ht⟩

theorem witness_BitReversalIsInvolution : 0 < 2 ^ 0 ∧ 31 < 2 ^ 5 := by decide

/-- Lengths 1 and 4 with their cells written. -/
theorem witness_PermuteResult :
    (withCells 1 [5]).readS64 0 = 2 ^ 0 ∧ (∀ k < 2 ^ 0, (withCells 1 [5]).readCell .buf0 k ≠ none) ∧
    (withCells 4 [1, 2, 3, 4]).readS64 0 = 2 ^ 2 ∧ 2 ≤ (withCells 4 [1, 2, 3, 4]).cfg.log2Nmax.val ∧
    ∀ k < 2 ^ 2, (withCells 4 [1, 2, 3, 4]).readCell .buf0 k ≠ none := by decide

/-- The invariant holds in a state with cells written. -/
theorem witness_invariant : (withCells 4 [1, 2, 3, 4]).Inv where
  wf b := by cases b <;> decide
  within b := by cases b <;> decide
  errLegal := by decide
  errinfoClear := by decide

theorem witness_PermuteTwiceIsIdentity :
    (withCells 4 [1, 2, 3, 4]).Inv ∧ 2 ≤ (withCells 4 [1, 2, 3, 4]).cfg.log2Nmax.val ∧
    (withCells 4 [1, 2, 3, 4]).readS64 0 = 2 ^ 2 ∧ ∀ k < 2 ^ 2, (withCells 4 [1, 2, 3, 4]).readCell .buf0 k ≠ none :=
  ⟨witness_invariant, by decide, by decide, by decide⟩

/-- The bad length -2^63; the valid lengths 1 and NMAX, for a command that runs on them. -/
theorem witness_LengthCheckRule :
    (∀ k ≤ (withX0 (-2 ^ 63)).cfg.log2Nmax.val, (withX0 (-2 ^ 63)).readS64 0 ≠ 2 ^ k) ∧
    (∃ k ≤ (withX0 32).cfg.log2Nmax.val, (withX0 32).readS64 0 = 2 ^ k) ∧
    (∃ k ≤ (withX0 1).cfg.log2Nmax.val, (withX0 1).readS64 0 = 2 ^ k) ∧
    onNext (exec (.brev .buf0 0) (withX0 32)) (fun _ => true) = true :=
  ⟨by decide +kernel, ⟨5, by decide⟩, ⟨0, by decide⟩, by decide +kernel⟩

/-- Two states that differ outside the cells [0, 2), and a bad length. -/
theorem witness_TransformsStayInTheirCells :
    onNext (exec (.nttf .buf0 0) (withCells 2 [3, 4])) (fun _ => true) = true ∧
    onNext (exec (.nttf .buf0 0) ((withCells 2 [3, 4, 9]).writeF 5 8)) (fun _ => true) = true ∧
    (withCells 2 [3, 4]).readS64 0 = 2 ^ 1 ∧ ((withCells 2 [3, 4, 9]).writeF 5 8).readS64 0 = 2 ^ 1 ∧
    (∀ k < 2 ^ 1, ((withCells 2 [3, 4, 9]).writeF 5 8).readCell .buf0 k = (withCells 2 [3, 4]).readCell .buf0 k) ∧
    onNext (exec (.ntti .buf0 0) (withX0 12)) (fun _ => true) = true ∧
    ∀ L ≤ (withX0 12).cfg.log2Nmax.val, (withX0 12).readS64 0 ≠ 2 ^ L := by decide +kernel

/-- Lengths 1 and 4. -/
theorem witness_ForwardTransformValues :
    ((withCells 1 [5]).readS64 0 = 2 ^ 0 ∧ HoldsElems (withCells 1 [5]) .buf0 (2 ^ 0) fun _ => 5) ∧
    (withCells 4 [1, 2, 3, 4]).readS64 0 = 2 ^ 2 ∧ 2 ≤ (withCells 4 [1, 2, 3, 4]).cfg.log2Nmax.val ∧
    HoldsElems (withCells 4 [1, 2, 3, 4]) .buf0 (2 ^ 2) fun k => reduceNat (k + 1) := by
  unfold HoldsElems; decide

theorem witness_InverseTransformValues :
    ((withCells 1 [5]).readS64 0 = 2 ^ 0 ∧ HoldsElems (withCells 1 [5]) .buf0 (2 ^ 0) fun _ => 5) ∧
    (withCells 4 [1, 2, 3, 4]).readS64 0 = 2 ^ 2 ∧ 2 ≤ (withCells 4 [1, 2, 3, 4]).cfg.log2Nmax.val ∧
    HoldsElems (withCells 4 [1, 2, 3, 4]) .buf0 (2 ^ 2) fun k => reduceNat (k + 1) := by
  unfold HoldsElems; decide

theorem witness_TransformRoundTrip :
    (withCells 4 [1, 2, 3, 4]).Inv ∧ 2 ≤ (withCells 4 [1, 2, 3, 4]).cfg.log2Nmax.val ∧
    (withCells 4 [1, 2, 3, 4]).readS64 0 = 2 ^ 2 ∧ ∀ k < 2 ^ 2, (withCells 4 [1, 2, 3, 4]).readCell .buf0 k ≠ none :=
  ⟨witness_invariant, by decide, by decide, by decide⟩

theorem witness_PointwiseProductIsCyclicConvolution :
    ([5] : List FieldElem).length = 2 ^ 0 ∧ (List.replicate (2 ^ 23) (3 : FieldElem)).length = 2 ^ 23 ∧ 23 ≤ 23 ∧
    (2 ^ 23 - 1 < 2 ^ 23) :=
  ⟨rfl, List.length_replicate, le_refl 23, by decide⟩

/-- Lengths -1 and 17 at NMAX = 32. -/
theorem witness_SquareLengthRule :
    (withX0 (-1)).readS64 0 < 0 ∧ (withX0 17).nmax < sqLength ((withX0 17).readS64 0) ∧
    2 * (5 : Int) - 1 ≤ (2 ^ 4 : Nat) := by decide

/-- Lengths 0 and 16, the largest at NMAX = 32, and the sums on both sides of 2·fl - 1. -/
theorem witness_SquareExtendResult :
    ((0 : Int) ≤ (withX0 0).readS64 0 ∧ 2 * (withX0 0).readS64 0 - 1 ≤ ((withX0 0).nmax : Int) ∧
      HoldsElems (withX0 0) .buf0 ((withX0 0).readS64 0).toNat fun _ => 0) ∧
    ((withCells 16 (List.replicate 16 1)).readS64 0 = 16 ∧ 2 * (16 : Int) - 1 ≤ (State.reset.nmax : Int) ∧
      HoldsElems (withCells 16 (List.replicate 16 1)) .buf0 16 fun _ => 1) := by
  unfold HoldsElems; decide +kernel

theorem witness_SquareExtendConsumesSource :
    BufSel.buf1 ≠ BufSel.buf0 ∧ (0 : Int) ≤ (withCells 3 [1, 2, 3]).readS64 0 ∧
    2 * (withCells 3 [1, 2, 3]).readS64 0 - 1 ≤ ((withCells 3 [1, 2, 3]).nmax : Int) ∧
    HoldsElems (withCells 3 [1, 2, 3]) .buf0 ((withCells 3 [1, 2, 3]).readS64 0).toNat (fun k => reduceNat (k + 1)) ∧
    8 = sqLength ((withCells 3 [1, 2, 3]).readS64 0) := by
  unfold HoldsElems; decide

/-- The last cell of each kind of read: FLD at NMAX - 1, a length NMAX, a square of length 16, the host's window. -/
theorem witness_UninitReadStops :
    (withX0 31).readCell .buf1 31 = none ∧ (withX0 31).readS64 0 = ((31 : Nat) : Int) ∧ 31 < (withX0 31).nmax ∧
    (withX0 32).readCell .buf1 31 = none ∧ (withX0 32).readS64 0 = 2 ^ 5 ∧ 31 < 2 ^ 5 ∧
    (withX0 16).readCell .buf1 15 = none ∧ ((15 : Nat) : Int) < (withX0 16).readS64 0 ∧
    2 * (withX0 16).readS64 0 - 1 ≤ ((withX0 16).nmax : Int) ∧
    (0x0400007C : Word32).toNat = 0x02000000 * (bufNumber .buf1 + 1) + 4 * 31 ∧
    (pending (.read 0x0400007C) State.reset).pending = [.read 0x0400007C] ∧
    (pending (.write 0x020 0x12004000) (withX0 32)).pending = .write 0x020 0x12004000 :: [] ∧
    (pending (.write 0x020 0x12004000) (withX0 32)).err = 0 ∧ decode 0x12004000 = .ok (.nttf .buf1 0) := by decide

/-- Both cases for FLD and for NTTF; a command that reads no cell. -/
theorem witness_EveryCommandCompletes :
    InputsWritten (.fld 1 .buf0 0) (withCells 0 [4]) ∧ ¬ InputsWritten (.fld 1 .buf0 0) (withX0 31) ∧
    InputsWritten (.nttf .buf0 0) (withCells 2 [3, 4]) ∧ ¬ InputsWritten (.nttf .buf0 0) (withCells 2 [3]) ∧
    InputsWritten .nop State.reset := by
  unfold InputsWritten; decide

theorem witness_ErrorsArePrecise :
    latchesNew (withF01 1 0) (exec (.finv 2 1) (withF01 1 0)) = true ∧ Instr.finv 2 1 ≠ .clrerr := by decide

/-- One command of each clause that latches an error. -/
theorem witness_ErrorCodesByCommand :
    ([(.fdiv 2 0 1, 1), (.finv 2 1, 1), (.brev .buf0 0, 2), (.brperm .buf0 0, 2), (.nttf .buf0 0, 2), (.ntti .buf0 0, 2),
      (.sqext .buf1 .buf0 0, 2), (.fpow 2 1 0, 4), (.fld 2 .buf0 0, 5), (.fst 2 .buf0 0, 5)] : List (Instr × BitVec 4)).all
      (fun p => onNext (exec p.1 (withX0 (-1))) fun t => t.err == p.2) = true ∧ (withX0 (-1)).err = 0 := by decide

/-- A command of each shape gives a next state. -/
theorem witness_CommandFrame :
    ([.nop, .fadd 2 0 1, .feq 2 0 1, .fld 2 .buf0 7, .fst 2 .buf1 0, .ntti .buf0 0, .sqext .buf1 .buf0 0, .clrerr] :
      List Instr).all (fun i => onNext (exec i (withCells 2 [3, 4])) fun _ => true) = true := by decide +kernel

theorem witness_ConstantRegisters :
    (pending (.read 0x014) State.reset).pending = .read 0x014 :: [] ∧
    (pending (.write 0x000 5) State.reset).pending = .write 0x000 5 :: [] := by decide

theorem witness_StatusRegistersRead :
    (pending (.read 0x004) blocked).pending = .read 0x004 :: [] ∧ (pending (.read 0x008) blocked).pending = .read 0x008 :: [] := by
  decide

/-- F0 and F7. -/
theorem witness_HostFieldAccess :
    (0x100 : Word32).toNat = 0x100 + 4 * (0 : RegNum).val ∧ (0x11C : Word32).toNat = 0x100 + 4 * (7 : RegNum).val ∧
    (pending (.read 0x11C) State.reset).pending = .read 0x11C :: [] ∧
    (pending (.write 0x11C 0xFFFFFFFF) State.reset).pending = .write 0x11C 0xFFFFFFFF :: [] := by decide

/-- The halves of X0 and X7. -/
theorem witness_HostIntegerAccess :
    (0x200 : Word32).toNat = 0x200 + 8 * (0 : RegNum).val ∧ (0x238 : Word32).toNat = 0x200 + 8 * (7 : RegNum).val ∧
    (0x204 : Word32).toNat = 0x204 + 8 * (0 : RegNum).val ∧ (0x23C : Word32).toNat = 0x204 + 8 * (7 : RegNum).val ∧
    (pending (.read 0x23C) State.reset).pending = .read 0x23C :: [] ∧
    (pending (.write 0x238 1) State.reset).pending = .write 0x238 1 :: [] := by decide

/-- Cell 0 of BUF0, written and not; cell NMAX - 1 of BUF1. -/
theorem witness_HostCellAccess :
    (0x02000000 : Word32).toNat = 0x02000000 * (bufNumber .buf0 + 1) + 4 * 0 ∧ 31 < State.reset.nmax ∧
    (0x0400007C : Word32).toNat = 0x02000000 * (bufNumber .buf1 + 1) + 4 * 31 ∧
    (pending (.read 0x02000000) (withCells 0 [4])).readCell .buf0 0 = some 4 ∧
    (pending (.read 0x02000000) State.reset).readCell .buf0 0 = none ∧
    (pending (.write 0x0400007C 5) State.reset).pending = .write 0x0400007C 5 :: [] := by decide

/-- Neither readable nor writable: a misaligned offset and the first offset of a window's tail; CMD is not readable,
and STATUS is not writable. -/
theorem witness_BadHostAccessesLatch :
    (∀ a ∈ ([0x102, 0x020, 0x240, 0x02000080] : List Nat), ¬ Readable 32 a) ∧
    (∀ a ∈ ([0x102, 0x004, 0x240, 0x02000080] : List Nat), ¬ Writable 32 a) ∧
    (pending (.read 0x102) State.reset).nmax = 32 ∧ (0x02000080 : Word32).toNat = 0x02000080 ∧
    (pending (.read 0x102) State.reset).pending = .read 0x102 :: [] ∧
    (pending (.write 0x02000080 1) State.reset).pending = .write 0x02000080 1 :: [] ∧
    (Readable 32 (0x11C : Word32).toNat ∧ Writable 32 (0x11C : Word32).toNat ∧ (0x11C : Word32) ≠ 0x004 ∧
      (0x11C : Word32) ≠ 0x008 ∧ (0x11C : Word32) ≠ 0x020) ∧
    onNext (step (pending (.read 0x11C) State.reset)) (fun _ => true) = true := by
  refine ⟨?_, ?_, by decide, by decide, by decide, by decide, ⟨?_, ?_, by decide, by decide, by decide⟩, by decide⟩
  rotate_left 2
  · exact .inr (.inr (.inr (.inr (.inr (.inr (.inl ⟨7, by decide, .inl rfl⟩))))))
  · exact .inr (.inl ⟨7, by decide, .inl rfl⟩)
  · simp only [List.mem_cons, List.not_mem_nil, or_false]
    rintro a ha (h | h | h | h | h | h | ⟨i, hi, h⟩ | ⟨k, hk, h⟩) <;> omega
  · simp only [List.mem_cons, List.not_mem_nil, or_false]
    rintro a ha (h | ⟨i, hi, h⟩ | ⟨k, hk, h⟩) <;> omega

/-- A read that is mapped, and the same write twice. -/
theorem witness_HostAccessSideEffects :
    Readable 32 (0x0400007C : Word32).toNat ∧
    onNext (step (pending (.read 0x100) State.reset)) (fun _ => true) = true ∧ (0x10C : Word32) ≠ 0x020 ∧
    onNext (step { State.reset with pending := [.write 0x10C 7, .write 0x10C 7] })
      (fun t => onNext (step t) fun _ => true) = true :=
  ⟨.inr (.inr (.inr (.inr (.inr (.inr (.inr ⟨31, by decide, .inr rfl⟩)))))), by decide, by decide, by decide⟩

/-- A half of X7, and a cell. -/
theorem witness_ReadReturnsLastWrite :
    (0x23C : Word32) ≠ 0x020 ∧ Writable State.reset.nmax (0x23C : Word32).toNat ∧
    (0x200 ≤ (0x23C : Word32).toNat ∧ (0x23C : Word32).toNat < 0x240) ∧
    Writable State.reset.nmax (0x0400007C : Word32).toNat ∧
    ¬ (0x200 ≤ (0x0400007C : Word32).toNat ∧ (0x0400007C : Word32).toNat < 0x240) ∧
    ({ State.reset with pending := [.write 0x23C 1, .read 0x23C] } : State).pending = .write 0x23C 1 :: .read 0x23C :: [] :=
  ⟨by decide, .inr (.inl ⟨7, by decide, .inr (.inr rfl)⟩), by decide, .inr (.inr ⟨31, by decide, .inr rfl⟩), by decide, rfl⟩

theorem witness_ResetRestoresState : (pending .reset (blocked.writeF 3 9)).pending = .reset :: [] := by decide

theorem witness_StepKeepsInvariant :
    State.Inv (pending (.write 0x020 0x12000000) (withCells 4 [1, 2, 3, 4])) ∧
    ∃ t, step (pending (.write 0x020 0x12000000) (withCells 4 [1, 2, 3, 4])) = .next t := by
  refine ⟨⟨fun b => by cases b <;> decide, fun b => by cases b <;> decide, by decide, by decide⟩, ?_⟩
  have h : onNext (step (pending (.write 0x020 0x12000000) (withCells 4 [1, 2, 3, 4]))) (fun _ => true) = true := by
    decide +kernel
  obtain ⟨t, ht, _⟩ := onNext_true h
  exact ⟨t, ht⟩

/-- A blocked unit with another word; a step that latches and a step that clears. -/
theorem witness_ErrorLatchIsSticky :
    onNext (step (pending (.write 0x020 0x01408000) blocked)) (fun _ => true) = true ∧ blocked.err ≠ 0 ∧
    (pending (.write 0x020 0x01408000) blocked).pending.head? ≠ some .reset ∧
    (pending (.write 0x020 0x01408000) blocked).pending.head? ≠ some (.write 0x020 0x20000000) ∧
    onNext (step (pending (.write 0x020 0x0B000000) State.reset)) (fun t => t.errinfo != State.reset.errinfo) = true ∧
    onNext (step (pending (.write 0x020 0x20000000) blocked)) (fun t => t.errinfo != blocked.errinfo) = true := by decide

theorem witness_StepServesOneAccess :
    onNext (step { State.reset with pending := [.read 0x000, .read 0x004] }) (fun t => t.pending == [.read 0x004]) = true := by
  decide

theorem witness_IdleStepChangesNothing : State.reset.pending = [] := by decide

theorem witness_WrittenCellsStayWritten :
    onNext (step (pending (.write 0x020 0x12000000) (withCells 1 [5]))) (fun _ => true) = true ∧
    (pending (.write 0x020 0x12000000) (withCells 1 [5])).pending.head? ≠ some .reset ∧
    (pending (.write 0x020 0x12000000) (withCells 1 [5])).readCell .buf0 0 ≠ none := by decide

/-- A unit of one cell per buffer, with a host read pending and no reset. -/
theorem witness_FullBuffersRunSafely :
    (∀ k < (pending (.read 0x02000000) tiny).nmax, (pending (.read 0x02000000) tiny).readCell .buf0 k ≠ none) ∧
    (∀ k < (pending (.read 0x02000000) tiny).nmax, (pending (.read 0x02000000) tiny).readCell .buf1 k ≠ none) ∧
    HostInput.reset ∉ (pending (.read 0x02000000) tiny).pending := by decide

end Sys2Proof.Tests
end

section
/-! What a step does to the configuration, to the accesses still to be served, and to the replies. -/

namespace Sys2Proof.Machine

/-- No command touches the configuration or the host's side of the port (00_scope.md R11). -/
theorem CommandEffect.samePort {i : Instr} {s t : State} (h : CommandEffect i s t) : SamePort s t := by
  cases h with
  | nothing | clears | writesF | writesX => exact ⟨rfl, rfl, rfl⟩
  | writesCell | writesCells | writesBoth | raises => simp [SamePort]

/-- The port after one input has been served: at most one reply is added, all else stands as before. -/
def AtMostOneReply (s t : State) : Prop :=
  t.cfg = s.cfg ∧ t.pending = s.pending ∧ (t.replies = s.replies ∨ ∃ v, t.replies = v :: s.replies)

theorem SamePort.atMostOneReply {s t : State} (h : SamePort s t) : AtMostOneReply s t := by
  obtain ⟨hcfg, hpending, hreplies⟩ := h
  exact ⟨hcfg, hpending, .inl hreplies⟩

/-- Only a host read replies, with one word (20_memory.md R52); every other input leaves the port as it is. -/
theorem ServeEffect.atMostOneReply {e : HostInput} {s t : State} (h : ServeEffect e s t) : AtMostOneReply s t := by
  cases h with
  | replies a v => exact ⟨rfl, rfl, .inr ⟨v, rfl⟩⟩
  | badRead a => exact ⟨by simp, by simp, .inr ⟨0, by simp⟩⟩
  | command _ _ _ _ _ _ hc => exact hc.samePort.atMostOneReply
  | resets | storesF | storesX | discards | unblocks => exact SamePort.atMostOneReply ⟨rfl, rfl, rfl⟩
  | badWrite | storesCell | illegal => exact SamePort.atMostOneReply (by simp [SamePort])

/-- Settles O50: an idle step changes nothing, and any other takes the oldest input off the list and serves it, which
adds at most one reply. -/
theorem stepServesOneAccess : Obligations.StepServesOneAccess := by
  intro s t h
  obtain ⟨hp, rfl⟩ | ⟨e, rest, hp, he⟩ := step_effect h
  · exact ⟨rfl, by simp [hp], .inl rfl⟩
  · obtain ⟨hcfg, hpending, hreplies⟩ := he.atMostOneReply
    exact ⟨hcfg, by simp [hp, hpending], hreplies⟩

end Sys2Proof.Machine
end

section
/-! What the updates of the error latch leave in it (60_exceptions.md R200, R203), and the invariant over each update
of the state. -/

namespace Sys2Proof.Machine

theorem errorCode_toNat_le (e : ErrorKind) : (errorCode e).toNat ≤ 6 := by cases e <;> decide

theorem errorCode_ne_zero (e : ErrorKind) : errorCode e ≠ 0 := by cases e <;> decide

theorem raiseError_of_clear {s : State} (h : s.err = 0) (e : ErrorKind) (w : Word32) :
    s.raiseError e w = { s with err := errorCode e, errinfo := w } := latched_of_clear h _ w

theorem raiseError_of_set {s : State} (h : s.err ≠ 0) (e : ErrorKind) (w : Word32) : s.raiseError e w = s :=
  latched_of_set h _ w

/-- Only the buffers, the configuration and the error latch bear on the invariant. -/
theorem State.Inv.of_same {s t : State} (h : s.Inv) (hb : ∀ b, t.buffer b = s.buffer b) (hc : t.cfg = s.cfg)
    (hs : SameStatus s t) : t.Inv := by
  obtain ⟨herr, hinfo⟩ := hs
  have hn : t.nmax = s.nmax := congrArg Config.nmax hc
  exact ⟨fun b => hb b ▸ h.wf b, fun b => hn ▸ hb b ▸ h.within b, herr ▸ h.errLegal,
    fun h0 => hinfo.trans (h.errinfoClear (herr ▸ h0))⟩

theorem State.Inv.setBuffer {s : State} (h : s.Inv) (b : BufSel) {m : Memory} (hw : m.wf) (hn : m.within s.nmax) :
    (s.setBuffer b m).Inv := by
  have hc : (s.setBuffer b m).nmax = s.nmax := congrArg Config.nmax (s.setBuffer_cfg b m)
  have hm : ∀ b', ((s.setBuffer b m).buffer b').wf ∧ ((s.setBuffer b m).buffer b').within s.nmax := by
    intro b'
    by_cases hb : b' = b
    · subst hb; rw [State.setBuffer_buffer_same]; exact ⟨hw, hn⟩
    · rw [State.setBuffer_buffer_other _ _ _ _ hb]; exact ⟨h.wf b', h.within b'⟩
  exact ⟨fun b' => (hm b').1, fun b' => hc ▸ (hm b').2, by simpa using h.errLegal, by simpa using h.errinfoClear⟩

theorem State.Inv.writeCell {s : State} (h : s.Inv) (b : BufSel) {k : Nat} (hk : k < s.nmax) (v : FieldElem) :
    (s.writeCell b k v).Inv :=
  h.setBuffer b (Memory.wf_write (h.wf b) k v) (Memory.within_write (h.within b) hk v)

theorem State.Inv.writeCells {s : State} (h : s.Inv) (b : BufSel) {vs : List FieldElem} (hl : vs.length ≤ s.nmax) :
    (s.writeCells b vs).Inv :=
  h.setBuffer b (Memory.wf_writeRange (h.wf b) 0 vs) (Memory.within_writeRange (h.within b) (by omega))

theorem State.Inv.clearError {s : State} (h : s.Inv) : s.clearError.Inv :=
  ⟨fun b => s.clearError_buffer b ▸ h.wf b, fun b => s.clearError_buffer b ▸ h.within b, by simp, fun _ => rfl⟩

/-- The first error latches one of the codes 1 to 6; a later one changes nothing. -/
theorem State.Inv.raiseError {s : State} (h : s.Inv) (e : ErrorKind) (w : Word32) : (s.raiseError e w).Inv := by
  by_cases h0 : s.err = 0
  · rw [raiseError_of_clear h0]
    exact ⟨fun b => by cases b; exacts [h.wf .buf0, h.wf .buf1],
      fun b => by cases b; exacts [h.within .buf0, h.within .buf1],
      errorCode_toNat_le e, fun hc => absurd hc (errorCode_ne_zero e)⟩
  · rwa [raiseError_of_set h0]

/-- Empty buffers and a clear latch meet the invariant, whatever the registers and the host's side of the port hold. -/
theorem State.inv_of_empty {s : State} (hb : ∀ b, s.buffer b = []) (he : s.err = 0) (hi : s.errinfo = 0) : s.Inv :=
  ⟨fun b => by simp [hb], fun b => by simp [hb], by simp [he], fun _ => hi⟩

theorem resetWith_buffer (c : Config) (b : BufSel) : (State.resetWith c).buffer b = [] := by cases b <;> rfl

theorem resetUnit_buffer (s : State) (b : BufSel) : s.resetUnit.buffer b = [] := by cases b <;> rfl

/-- Every effect of a command keeps the invariant: its writes stay below NMAX. -/
theorem CommandEffect.keeps_inv {i : Instr} {s t : State} (h : CommandEffect i s t) (hs : s.Inv) : t.Inv := by
  cases h with
  | nothing => exact hs
  | clears => exact hs.clearError
  | writesF | writesX => exact hs.of_same (by simp) rfl ⟨rfl, rfl⟩
  | writesCell b k v hk => exact hs.writeCell b hk v
  | writesCells b vs hl => exact hs.writeCells b hl
  | writesBoth f tb vs ws hl hl' =>
    have hn : (s.writeCells f vs).nmax = s.nmax := congrArg Config.nmax (s.writeCells_cfg f vs)
    exact (hs.writeCells f hl).writeCells tb (by omega)
  | raises e => exact hs.raiseError e _

/-- Serving any input keeps the invariant. -/
theorem ServeEffect.keeps_inv {e : HostInput} {s t : State} (h : ServeEffect e s t) (hs : s.Inv) : t.Inv := by
  cases h with
  | resets => exact State.inv_of_empty (resetUnit_buffer s) rfl rfl
  | replies | storesF | storesX => exact hs.of_same (by simp) rfl ⟨rfl, rfl⟩
  | badRead a => exact (hs.raiseError .hostAccess a).of_same (by simp) rfl ⟨rfl, rfl⟩
  | badWrite a => exact hs.raiseError .hostAccess a
  | storesCell _ _ b k u _ hk => exact hs.writeCell b hk u
  | discards => exact hs
  | unblocks => exact hs.clearError
  | illegal v => exact hs.raiseError .illegalCommand v
  | command _ _ _ _ _ _ hc => exact hc.keeps_inv hs

/-- Settles O48: an idle step keeps the state, and any other serves one input, whose every effect keeps the
invariant. -/
theorem stepKeepsInvariant : Obligations.StepKeepsInvariant := by
  intro s t hs h
  obtain ⟨-, rfl⟩ | ⟨e, rest, -, he⟩ := step_effect h
  · exact hs
  · exact he.keeps_inv (hs.of_same (by simp) rfl ⟨rfl, rfl⟩)

/-- Settles O47: after reset the buffers are empty and the latch is clear. -/
theorem resetMeetsInvariant : Obligations.ResetMeetsInvariant :=
  have h : ∀ c, (State.resetWith c).Inv := fun c => State.inv_of_empty (resetWith_buffer c) rfl rfl
  ⟨h, h _⟩

/-- Settles O45: each register and cell is read from the state `State.resetWith` writes out. -/
theorem resetState : Obligations.ResetState := by
  refine ⟨fun c => ⟨fun r => ?_, fun r => ?_, fun b k => ?_, rfl, rfl, rfl⟩, ⟨5⟩, rfl⟩
  · simp [State.readF, State.resetWith, Vector.get_eq_getElem]
  · simp [State.readX, State.resetWith, Vector.get_eq_getElem]
  · rw [State.readCell, resetWith_buffer, Memory.read_nil]

end Sys2Proof.Machine
end

section
/-! The frame of every command: its destination register and the cells listed for it (10_state.md R21, R23, R26). -/

namespace Sys2Proof.Machine
variable {i : Instr} {s t : State}

/-- No command but one with destination F[r] changes F[r]. -/
theorem CommandEffect.readF_eq (h : CommandEffect i s t) {r : RegNum} (hr : destF i ≠ some r) :
    t.readF r = s.readF r := by
  cases h with
  | writesF fd v hd => exact s.readF_writeF_other fd r v fun he => hr (he ▸ hd)
  | nothing | clears | writesX => rfl
  | writesCell | writesCells | writesBoth | raises => simp [State.readF]

/-- No command but one with destination X[r] changes X[r]. -/
theorem CommandEffect.readX_eq (h : CommandEffect i s t) {r : RegNum} (hr : destX i ≠ some r) :
    t.readX r = s.readX r := by
  cases h with
  | writesX xd v hd => exact s.readX_writeX_other xd r v fun he => hr (he ▸ hd)
  | nothing | clears | writesF => rfl
  | writesCell | writesCells | writesBoth | raises => simp [State.readX]

/-- A command changes no cell but those listed for it. -/
theorem CommandEffect.readCell_eq (h : CommandEffect i s t) {b : BufSel} {k : Nat} (hk : ¬ MayWriteCell i s b k) :
    t.readCell b k = s.readCell b k := by
  have outside {b' : BufSel} {vs : List FieldElem} (hw : ∀ j < vs.length, MayWriteCell i s b' j) :
      ¬ (b = b' ∧ k < vs.length) := by
    rintro ⟨rfl, hl⟩; exact hk (hw k hl)
  cases h with
  | nothing => rfl
  | clears | writesF | writesX | raises => simp
  | writesCell b' k' v _ hm =>
    refine s.readCell_writeCell_other _ _ _ _ _ ?_
    rintro ⟨rfl, rfl⟩; exact hk hm
  | writesCells b' vs _ hw => rw [State.readCell_writeCells, if_neg (outside hw)]
  | writesBoth f tb vs ws _ _ hf ht =>
    rw [State.readCell_writeCells, if_neg (outside ht), State.readCell_writeCells, if_neg (outside hf)]

/-- Settles O36: the parts of the frame, each read off the effects a command can have. -/
theorem commandFrame : Obligations.CommandFrame := fun _ _ _ h =>
  have he := exec_effect h
  ⟨fun _ => he.readF_eq, fun _ => he.readX_eq, fun _ _ => he.readCell_eq, he.samePort⟩

end Sys2Proof.Machine
end

section
/-! The three things that can happen to the error latch: it is kept, it takes a first error, or it is cleared
(10_state.md R29, R33; 60_exceptions.md R203, R207). -/

namespace Sys2Proof.Machine

/-- The latch was clear and holds an error now. -/
def LatchesError (s t : State) : Prop := s.err = 0 ∧ t.err ≠ 0

/-- The latch is clear. -/
def LatchClear (t : State) : Prop := t.err = 0 ∧ t.errinfo = 0

/-- The inputs that may clear a latched error: the word CLRERR written to CMD, and reset. -/
def ClearsLatch (e : HostInput) : Prop := e = .reset ∨ e = .write cmdOffset clrerrWord

theorem raiseError_latch (s : State) (e : ErrorKind) (w : Word32) :
    SameStatus s (s.raiseError e w) ∨ LatchesError s (s.raiseError e w) := by
  by_cases h : s.err = 0
  · rw [raiseError_of_clear h]; exact .inr ⟨h, errorCode_ne_zero e⟩
  · rw [raiseError_of_set h]; exact .inl ⟨rfl, rfl⟩

theorem CommandEffect.latch {i : Instr} {s t : State} (h : CommandEffect i s t) :
    SameStatus s t ∨ LatchesError s t ∨ LatchClear t := by
  cases h with
  | nothing | writesF | writesX => exact .inl ⟨rfl, rfl⟩
  | writesCell | writesCells | writesBoth => exact .inl (by simp [SameStatus])
  | clears => exact .inr (.inr ⟨rfl, rfl⟩)
  | raises e => exact (raiseError_latch s e _).imp_right .inl

/-- Serving an input keeps the latch, latches a first error, or leaves it clear; and it does the last while an error
is latched only for CLRERR and reset, since a blocked unit runs no other command. -/
theorem ServeEffect.latch {e : HostInput} {s t : State} (h : ServeEffect e s t) :
    SameStatus s t ∨ LatchesError s t ∨ (LatchClear t ∧ (s.err ≠ 0 → ClearsLatch e)) := by
  cases h with
  | replies | storesF | storesX | discards => exact .inl ⟨rfl, rfl⟩
  | storesCell => exact .inl (by simp [SameStatus])
  | badRead a => exact (raiseError_latch s .hostAccess a).imp_right .inl
  | badWrite a => exact (raiseError_latch s .hostAccess a).imp_right .inl
  | illegal v => exact (raiseError_latch s .illegalCommand v).imp_right .inl
  | resets he => exact .inr (.inr ⟨⟨rfl, rfl⟩, fun _ => .inl he⟩)
  | unblocks he => exact .inr (.inr ⟨⟨rfl, rfl⟩, fun _ => .inr he⟩)
  | command v i _ _ h0 _ hc => exact hc.latch.imp_right (.imp_right fun hl => ⟨hl, fun hne => absurd h0 hne⟩)

/-- Settles O49: both clauses are cases of what serving one input can do to the latch. -/
theorem errorLatchIsSticky : Obligations.ErrorLatchIsSticky := by
  intro s t h
  obtain ⟨-, rfl⟩ | ⟨e, rest, hp, he⟩ := step_effect h
  · exact ⟨fun _ _ _ => ⟨rfl, rfl⟩, fun hne => absurd rfl hne⟩
  · obtain hsame | hlatch | ⟨hclear, honly⟩ := he.latch
    · exact ⟨fun _ _ _ => hsame, fun hne => absurd hsame.2 hne⟩
    · exact ⟨fun hne _ _ => absurd hlatch.1 hne, fun _ => .inl hlatch⟩
    · refine ⟨fun hne hreset hclrerr => ?_, fun _ => .inr hclear⟩
      rw [hp] at hreset hclrerr
      obtain rfl | rfl := honly hne
      · exact absurd rfl hreset
      · exact absurd rfl hclrerr

end Sys2Proof.Machine
end

section
/-! Only a reset makes a written cell Unwritten (10_state.md R40). -/

namespace Sys2Proof.Machine

/-- Every cell written in `s` is written in `t`. -/
def KeepsWritten (s t : State) : Prop := ∀ b k, s.readCell b k ≠ none → t.readCell b k ≠ none

theorem SameCells.keepsWritten {s t : State} (h : SameCells s t) : KeepsWritten s t := fun b k hk => h b k ▸ hk

theorem KeepsWritten.trans {s t u : State} (h : KeepsWritten s t) (h' : KeepsWritten t u) : KeepsWritten s u :=
  fun b k hk => h' b k (h b k hk)

theorem keepsWritten_writeCell (s : State) (b : BufSel) (k : Nat) (v : FieldElem) :
    KeepsWritten s (s.writeCell b k v) := by
  intro b' k' hw
  by_cases h : b' = b ∧ k' = k
  · obtain ⟨rfl, rfl⟩ := h; simp
  · rwa [s.readCell_writeCell_other _ _ _ _ _ h]

theorem keepsWritten_writeCells (s : State) (b : BufSel) (vs : List FieldElem) :
    KeepsWritten s (s.writeCells b vs) := by
  intro b' k hw
  rw [State.readCell_writeCells]
  split
  · next h => simp [h.2]
  · exact hw

theorem CommandEffect.keepsWritten {i : Instr} {s t : State} (h : CommandEffect i s t) : KeepsWritten s t := by
  cases h with
  | nothing | clears | writesF | writesX | raises => exact SameCells.keepsWritten fun _ _ => by simp
  | writesCell b k v => exact keepsWritten_writeCell s b k v
  | writesCells b vs => exact keepsWritten_writeCells s b vs
  | writesBoth f tb vs ws => exact (keepsWritten_writeCells s f vs).trans (keepsWritten_writeCells _ tb ws)

theorem ServeEffect.keepsWritten {e : HostInput} {s t : State} (h : ServeEffect e s t) (hr : e ≠ .reset) :
    KeepsWritten s t := by
  cases h with
  | resets he => exact absurd he hr
  | storesCell _ _ b k u => exact keepsWritten_writeCell s b k u
  | command _ _ _ _ _ _ hc => exact hc.keepsWritten
  | replies | badRead | badWrite | storesF | storesX | discards | unblocks | illegal =>
    exact SameCells.keepsWritten fun _ _ => by simp

/-- Settles O52: an idle step changes nothing, and serving any input but a reset keeps the written cells written. -/
theorem writtenCellsStayWritten : Obligations.WrittenCellsStayWritten := by
  intro s t b k h hr hk
  obtain ⟨-, rfl⟩ | ⟨e, rest, hp, he⟩ := step_effect h
  · exact hk
  · exact he.keepsWritten (fun h0 => hr (by simp [hp, h0])) b k (by simpa using hk)

end Sys2Proof.Machine
end

section
/-! The registers the host only reads (10_state.md R28 to R33; 20_memory.md R52, R53). Their offsets lie below every
register file and window, so the map names them whatever NMAX is. -/

namespace Sys2Proof.Machine

theorem statusWord_toNat (err : BitVec 4) : (statusWord err).toNat = err.toNat := by
  have := err.isLt
  rw [statusWord, BitVec.toNat_setWidth, Nat.mod_eq_of_lt (by omega)]

/-- What the host reads from the four constant registers (10_state.md R28, R30, R31, R32). -/
theorem hostRead_constant {s : State} {a c : Word32}
    (h : (a, c) ∈ [((0x000 : Word32), idWord), (0x00C, configWord s.cfg), (0x010, primeWord), (0x014, rootWord)]) :
    hostRead a s = .next (s.reply c) := by
  simp only [List.mem_cons, Prod.mk.injEq, List.not_mem_nil, or_false] at h
  obtain ⟨rfl, rfl⟩ | ⟨rfl, rfl⟩ | ⟨rfl, rfl⟩ | ⟨rfl, rfl⟩ := h <;> rfl

theorem hostRead_status (s : State) : hostRead 0x004 s = .next (s.reply (statusWord s.err)) := rfl

theorem hostRead_errinfo (s : State) : hostRead 0x008 s = .next (s.reply s.errinfo) := rfl

/-- A write to a read-only register is a host access error (20_memory.md R53, R55). -/
theorem hostWrite_readOnly {a : Word32} (v : Word32) (s : State)
    (h : a ∈ [(0x000 : Word32), 0x004, 0x008, 0x00C, 0x010, 0x014]) : hostWrite a v s = .next (latched 6 a s) := by
  simp only [List.mem_cons, List.not_mem_nil, or_false] at h
  obtain rfl | rfl | rfl | rfl | rfl | rfl := h <;> rfl

/-- Settles O37: reads answer the constant, and writes are host access errors. -/
theorem constantRegisters : Obligations.ConstantRegisters := by
  refine ⟨fun s rest a c hp h => ?_, fun s rest a v hp h => ?_⟩
  · rw [step_read hp]; exact hostRead_constant h
  · rw [step_write hp]; exact hostWrite_readOnly v _ h

/-- Settles O38: STATUS answers the zero-extended code, ERRINFO its 32 bits. -/
theorem statusRegistersRead : Obligations.StatusRegistersRead := by
  intro s rest a hp
  rw [step_read hp]
  constructor
  · rintro rfl; exact ⟨statusWord s.err, statusWord_toNat s.err, hostRead_status _⟩
  · rintro rfl; exact hostRead_errinfo _

end Sys2Proof.Machine
end

section
/-! What the host reads at a location of the map and what a write leaves there (20_memory.md R52, R53, R56 to R58),
and which offsets name a location the host reads or stores to. -/

namespace Sys2Proof.Machine

/-- The word a read of a location returns; none for CMD, which is not read, and for an Unwritten cell. -/
def wordAt (s : State) : PortLoc → Option Word32
  | .id => some idWord
  | .status => some (statusWord s.err)
  | .errinfo => some s.errinfo
  | .config => some (configWord s.cfg)
  | .prime => some primeWord
  | .root => some rootWord
  | .cmd => none
  | .freg i => some (fieldWord (s.readF i))
  | .xlo i => some ((s.readX i).extractLsb 31 0)
  | .xhi i => some ((s.readX i).extractLsb 63 32)
  | .cell b k => (s.readCell b k).map fieldWord

/-- The locations a host write stores to: the field registers, the halves of the integer registers, the cells. -/
inductive IsData : PortLoc → Prop where
  | freg (i : RegNum) : IsData (.freg i)
  | xlo (i : RegNum) : IsData (.xlo i)
  | xhi (i : RegNum) : IsData (.xhi i)
  | cell (b : BufSel) (k : Nat) : IsData (.cell b k)

/-- The state a host write of `v` leaves; a location that is not data keeps its contents. -/
def storeAt (loc : PortLoc) (v : Word32) (s : State) : State :=
  match loc with
  | .freg i => s.writeF i (reduceNat v.toNat)
  | .xlo i => s.writeX i (withLowHalf (s.readX i) v)
  | .xhi i => s.writeX i (withHighHalf (s.readX i) v)
  | .cell b k => s.writeCell b k (reduceNat v.toNat)
  | .id | .status | .errinfo | .config | .prime | .root | .cmd => s

section Access
variable {a : Word32} {s : State} {loc : PortLoc}

theorem hostRead_of_wordAt_some {w : Word32} (hl : portLoc s.nmax a = some loc) (hw : wordAt s loc = some w) :
    hostRead a s = .next (s.reply w) := by
  unfold hostRead
  cases loc with
  | cmd => cases hw
  | cell b k =>
    obtain ⟨u, hu, rfl⟩ := Option.map_eq_some_iff.1 hw
    simp [hl, hu]
  | _ => cases hw; simp [hl]

theorem hostRead_of_wordAt_none (hl : portLoc s.nmax a = some loc) (hc : loc ≠ .cmd) (hw : wordAt s loc = none) :
    hostRead a s = .fault .uninitRead := by
  unfold hostRead
  cases loc with
  | cmd => exact absurd rfl hc
  | cell b k => simp [hl, Option.map_eq_none_iff.1 hw]
  | _ => cases hw

theorem hostWrite_data (v : Word32) (hl : portLoc s.nmax a = some loc) (hd : IsData loc) :
    hostWrite a v s = .next (storeAt loc v s) := by
  unfold hostWrite
  cases hd <;> simp [hl, storeAt]

end Access

/-! The offsets of the claims are those of the map. -/

section Offsets
variable {nmax : Nat} {a : Word32}

/-- The offsets that both a read and a write reach: what `Readable` and `Writable` have in common. -/
def DataOffset (nmax a : Nat) : Prop :=
  (∃ i < 8, a = 0x100 + 4 * i ∨ a = 0x200 + 8 * i ∨ a = 0x204 + 8 * i) ∨
    ∃ k < nmax, a = 0x02000000 + 4 * k ∨ a = 0x04000000 + 4 * k

theorem dataOffset_of_isData {loc : PortLoc} (hl : portLoc nmax a = some loc) (hd : IsData loc) :
    DataOffset nmax a.toNat := by
  obtain ⟨ha, hcell⟩ := portLoc_offset hl
  cases hd with
  | freg i => exact .inl ⟨i, i.isLt, .inl ha⟩
  | xlo i => exact .inl ⟨i, i.isLt, .inr (.inl ha)⟩
  | xhi i => exact .inl ⟨i, i.isLt, .inr (.inr ha)⟩
  | cell b k =>
    refine .inr ⟨k, hcell b k rfl, ?_⟩
    cases b
    · exact .inl ha
    · exact .inr ha

theorem isData_of_dataOffset (hn : nmax ≤ 2 ^ 23) (h : DataOffset nmax a.toNat) :
    ∃ loc, portLoc nmax a = some loc ∧ IsData loc := by
  obtain ⟨i, hi, ha | ha | ha⟩ | ⟨k, hk, ha | ha⟩ := h
  · exact ⟨_, portLoc_freg ⟨i, hi⟩ ha, .freg _⟩
  · exact ⟨_, portLoc_xlo ⟨i, hi⟩ ha, .xlo _⟩
  · exact ⟨_, portLoc_xhi ⟨i, hi⟩ ha, .xhi _⟩
  · exact ⟨_, portLoc_cell (b := .buf0) hn hk ha, .cell _ _⟩
  · exact ⟨_, portLoc_cell (b := .buf1) hn hk ha, .cell _ _⟩

theorem portLoc_of_readable (hn : nmax ≤ 2 ^ 23) (h : Readable nmax a.toNat) :
    ∃ loc, portLoc nmax a = some loc ∧ loc ≠ .cmd := by
  have named {b : Word32} {loc : PortLoc} (hb : a.toNat = b.toNat) (hl : portLoc nmax b = some loc)
      (hc : loc ≠ .cmd) : ∃ loc, portLoc nmax a = some loc ∧ loc ≠ .cmd :=
    ⟨loc, by rw [BitVec.eq_of_toNat_eq hb, hl], hc⟩
  obtain ha | ha | ha | ha | ha | ha | hd := h
  · exact named (b := 0x000) ha rfl nofun
  · exact named (b := 0x004) ha rfl nofun
  · exact named (b := 0x008) ha rfl nofun
  · exact named (b := 0x00C) ha rfl nofun
  · exact named (b := 0x010) ha rfl nofun
  · exact named (b := 0x014) ha rfl nofun
  · obtain ⟨loc, hl, hd⟩ := isData_of_dataOffset hn hd
    exact ⟨loc, hl, by cases hd <;> nofun⟩

theorem readable_of_portLoc {loc : PortLoc} (hl : portLoc nmax a = some loc) (hc : loc ≠ .cmd) :
    Readable nmax a.toNat := by
  have data (hd : IsData loc) : Readable nmax a.toNat :=
    .inr (.inr (.inr (.inr (.inr (.inr (dataOffset_of_isData hl hd))))))
  have ha := (portLoc_offset hl).1
  cases loc with
  | cmd => exact absurd rfl hc
  | freg i => exact data (.freg i)
  | xlo i => exact data (.xlo i)
  | xhi i => exact data (.xhi i)
  | cell b k => exact data (.cell b k)
  | _ => simp [Readable, ha, offsetOf]

/-- A read that no register and no cell answers is a host access error, and returns 0 (20_memory.md R52, R55). -/
theorem hostRead_of_not_readable {s : State} (h : ¬ Readable s.nmax a.toNat) :
    hostRead a s = .next ((latched 6 a s).reply 0) := by
  unfold hostRead
  cases hl : portLoc s.nmax a with
  | none => rfl
  | some loc =>
    have hcmd : loc = .cmd := not_not.1 fun hc => h (readable_of_portLoc hl hc)
    subst hcmd
    rfl

/-- A write that reaches neither data nor CMD is a host access error (20_memory.md R53, R55). -/
theorem hostWrite_of_not_writable {s : State} (v : Word32) (h : ¬ Writable s.nmax a.toNat) :
    hostWrite a v s = .next (latched 6 a s) := by
  unfold hostWrite
  cases hl : portLoc s.nmax a with
  | none => rfl
  | some loc =>
    have hd : ¬ IsData loc := fun hd => h (.inr (dataOffset_of_isData hl hd))
    cases loc with
    | cmd => exact absurd (.inl (portLoc_offset hl).1) h
    | freg i => exact absurd (.freg i) hd
    | xlo i => exact absurd (.xlo i) hd
    | xhi i => exact absurd (.xhi i) hd
    | cell b k => exact absurd (.cell b k) hd
    | _ => rfl

/-- A write that reaches anything but CMD stores to a data location. -/
theorem portLoc_of_writable {s : State} (h : Writable s.nmax a.toNat) (hc : a ≠ 0x020) :
    ∃ loc, portLoc s.nmax a = some loc ∧ IsData loc :=
  isData_of_dataOffset s.cfg.nmax_le (h.resolve_left fun ha => hc (BitVec.eq_of_toNat_eq ha))

end Offsets
end Sys2Proof.Machine
end

section
/-! The rules of the two accesses: what a store keeps, that it is idempotent, and what a read of the same location
then returns. -/

namespace Sys2Proof.Machine

theorem Memory.write_write_same (m : Memory) (k : Nat) (u v : FieldElem) :
    (m.write k u).write k v = m.write k v := by
  induction m with
  | nil => simp [Memory.write]
  | cons p m ih =>
    obtain ⟨j, w⟩ := p
    rw [Memory.write_cons, Memory.write_cons]
    split
    · simp [Memory.write_cons]
    · split
      · simp [Memory.write_cons]
      · rw [Memory.write_cons, if_neg ‹_›, if_neg ‹_›, ih]

theorem State.writeF_writeF_same (s : State) (r : RegNum) (u v : FieldElem) :
    (s.writeF r u).writeF r v = s.writeF r v := by
  simp [State.writeF]

theorem State.writeX_writeX_same (s : State) (r : RegNum) (u v : Word64) :
    (s.writeX r u).writeX r v = s.writeX r v := by
  simp [State.writeX]

theorem State.writeCell_writeCell_same (s : State) (b : BufSel) (k : Nat) (u v : FieldElem) :
    (s.writeCell b k u).writeCell b k v = s.writeCell b k v := by
  cases b <;> simp [State.writeCell, State.setBuffer, State.buffer, Memory.write_write_same]

theorem withLowHalf_withLowHalf (x : Word64) (u v : Word32) : withLowHalf (withLowHalf x u) v = withLowHalf x v := by
  apply BitVec.eq_of_toNat_eq
  have := u.isLt
  simp only [withLowHalf_toNat]
  omega

theorem withHighHalf_withHighHalf (x : Word64) (u v : Word32) :
    withHighHalf (withHighHalf x u) v = withHighHalf x v := by
  apply BitVec.eq_of_toNat_eq
  simp only [withHighHalf_toNat]
  omega

section Store
variable (loc : PortLoc) (v : Word32) (s : State) (q : List HostInput) (code : BitVec 4) (info : Word32)

@[simp] theorem storeAt_cfg : (storeAt loc v s).cfg = s.cfg := by cases loc <;> simp [storeAt]
@[simp] theorem storeAt_pending : (storeAt loc v s).pending = s.pending := by cases loc <;> simp [storeAt]
@[simp] theorem storeAt_replies : (storeAt loc v s).replies = s.replies := by cases loc <;> simp [storeAt]
@[simp] theorem storeAt_nmax : (storeAt loc v s).nmax = s.nmax := congrArg Config.nmax (storeAt_cfg loc v s)

/-- The same store twice is that store (20_memory.md R61). -/
@[simp] theorem storeAt_storeAt : storeAt loc v (storeAt loc v s) = storeAt loc v s := by
  cases loc with
  | freg i => exact s.writeF_writeF_same i _ _
  | xlo i => simp [storeAt, State.writeX_writeX_same, withLowHalf_withLowHalf]
  | xhi i => simp [storeAt, State.writeX_writeX_same, withHighHalf_withHighHalf]
  | cell b k => exact s.writeCell_writeCell_same b k _ _
  | _ => rfl

/-- A store neither looks at the pending accesses nor changes them. -/
theorem storeAt_withPending : storeAt loc v { s with pending := q } = { storeAt loc v s with pending := q } := by
  cases loc with
  | cell b k => cases b <;> rfl
  | _ => rfl

/-- A store is performed whatever error is latched, and keeps it (20_memory.md R55). -/
theorem storeAt_withLatch : storeAt loc v { s with err := code, errinfo := info } =
    { storeAt loc v s with err := code, errinfo := info } := by
  cases loc with
  | cell b k => cases b <;> rfl
  | _ => rfl

@[simp] theorem wordAt_withPending : wordAt { s with pending := q } loc = wordAt s loc := by
  cases loc with
  | cell b k => cases b <;> rfl
  | _ => rfl

/-- Only STATUS and ERRINFO read the error latch. -/
theorem wordAt_withLatch (hs : loc ≠ .status) (hi : loc ≠ .errinfo) :
    wordAt { s with err := code, errinfo := info } loc = wordAt s loc := by
  cases loc with
  | status => exact absurd rfl hs
  | errinfo => exact absurd rfl hi
  | cell b k => cases b <;> rfl
  | _ => rfl

end Store

/-- What a store of `v` leaves to be read: all of it in a half of an integer register, v mod P elsewhere
(20_memory.md R56 to R58). -/
def storedWord (loc : PortLoc) (v : Word32) : Word32 :=
  match loc with
  | .xlo _ | .xhi _ => v
  | _ => fieldWord (reduceNat v.toNat)

theorem wordAt_storeAt {loc : PortLoc} (hd : IsData loc) (v : Word32) (s : State) :
    wordAt (storeAt loc v s) loc = some (storedWord loc v) := by
  cases hd with
  | freg i => simp [wordAt, storeAt, storedWord]
  | xlo i => simp [wordAt, storeAt, storedWord, extract_withLowHalf]
  | xhi i => simp [wordAt, storeAt, storedWord, extract_withHighHalf]
  | cell b k => simp [wordAt, storeAt, storedWord]

/-- The data locations at 0x200 to 0x23F are the halves of the integer registers (20_memory.md R50). -/
theorem storedWord_of_half {loc : PortLoc} (hd : IsData loc) (v : Word32)
    (h : 0x200 ≤ offsetOf loc ∧ offsetOf loc < 0x240) : storedWord loc v = v := by
  cases hd with
  | xlo | xhi => rfl
  | freg i => simp only [offsetOf] at h; omega
  | cell b k => cases b <;> simp only [offsetOf, windowBase] at h <;> omega

theorem storedWord_of_not_half {loc : PortLoc} (v : Word32)
    (h : ¬ (0x200 ≤ offsetOf loc ∧ offsetOf loc < 0x240)) : (storedWord loc v).toNat = v.toNat % P := by
  cases loc with
  | xlo i => simp only [offsetOf] at h; omega
  | xhi i => simp only [offsetOf] at h; omega
  | _ => exact fieldWord_toNat _

theorem latched_replies (code : BitVec 4) (info : Word32) (s : State) : (latched code info s).replies = s.replies :=
  have ⟨_, _, _, _, _, h⟩ := onlyStatus_latched code info s
  h

theorem latched_nmax (code : BitVec 4) (info : Word32) (s : State) : (latched code info s).nmax = s.nmax :=
  have ⟨_, _, _, h, _, _⟩ := onlyStatus_latched code info s
  congrArg Config.nmax h

theorem latched_pending (code : BitVec 4) (info : Word32) (s : State) : (latched code info s).pending = s.pending :=
  have ⟨_, _, _, _, h, _⟩ := onlyStatus_latched code info s
  h

theorem latched_err_ne_zero {code : BitVec 4} (h : code ≠ 0) (info : Word32) (s : State) :
    (latched code info s).err ≠ 0 := by
  unfold latched
  split
  · exact h
  · assumption

end Sys2Proof.Machine
end

section
/-! One rule for each thing a step can do with a host access to anything but CMD (20_memory.md R52 to R58). -/

namespace Sys2Proof.Machine
variable {s : State} {rest : List HostInput} {a v : Word32} {loc : PortLoc}

theorem step_read_word {w : Word32} (hp : s.pending = .read a :: rest) (hl : portLoc s.nmax a = some loc)
    (hw : wordAt s loc = some w) : step s = .next { s with pending := rest, replies := w :: s.replies } :=
  (step_read hp).trans (hostRead_of_wordAt_some hl ((wordAt_withPending ..).trans hw))

theorem step_read_unwritten (hp : s.pending = .read a :: rest) (hl : portLoc s.nmax a = some loc) (hc : loc ≠ .cmd)
    (hw : wordAt s loc = none) : step s = .fault .uninitRead :=
  (step_read hp).trans (hostRead_of_wordAt_none hl hc ((wordAt_withPending ..).trans hw))

theorem step_read_bad (hp : s.pending = .read a :: rest) (hr : ¬ Readable s.nmax a.toNat) :
    step s = .next { latched 6 a { s with pending := rest } with replies := 0 :: s.replies } := by
  have h := hostRead_of_not_readable (s := { s with pending := rest }) hr
  rw [State.reply, latched_replies] at h
  exact (step_read hp).trans h

theorem step_write_data (hp : s.pending = .write a v :: rest) (hl : portLoc s.nmax a = some loc) (hd : IsData loc) :
    step s = .next (storeAt loc v { s with pending := rest }) :=
  (step_write hp).trans (hostWrite_data v hl hd)

theorem step_write_bad (hp : s.pending = .write a v :: rest) (hw : ¬ Writable s.nmax a.toNat) :
    step s = .next (latched 6 a { s with pending := rest }) :=
  (step_write hp).trans (hostWrite_of_not_writable v hw)

end Sys2Proof.Machine
end

section
/-! The host's accesses to the registers and the buffers (20_memory.md R54 to R58, R61, R64). -/

namespace Sys2Proof.Machine

theorem lowHalf_toNat (x : Word64) : (x.extractLsb 31 0).toNat = x.toNat % 2 ^ 32 := by
  rw [BitVec.extractLsb_toNat, Nat.shiftRight_zero]

theorem highHalf_toNat (x : Word64) : (x.extractLsb 63 32).toNat = x.toNat / 2 ^ 32 := by
  have := x.isLt
  rw [BitVec.extractLsb_toNat, Nat.shiftRight_eq_div_pow]
  omega

theorem windowBase_eq (b : BufSel) : windowBase b = 0x02000000 * (bufNumber b + 1) := by cases b <;> rfl

/-- Settles O40: each half is a location of the map, read and stored to by its rule. -/
theorem hostIntegerAccess : Obligations.HostIntegerAccess := by
  intro s rest r a
  refine ⟨fun ha => ⟨fun hp => ?_, fun v hp => ?_⟩, fun ha => ⟨fun hp => ?_, fun v hp => ?_⟩⟩
  · exact ⟨_, lowHalf_toNat _, step_read_word hp (portLoc_xlo r ha) rfl⟩
  · exact ⟨_, step_write_data hp (portLoc_xlo r ha) (.xlo r), by simp [storeAt, withLowHalf_toNat], onlyX_writeX _ r _⟩
  · exact ⟨_, highHalf_toNat _, step_read_word hp (portLoc_xhi r ha) rfl⟩
  · exact ⟨_, step_write_data hp (portLoc_xhi r ha) (.xhi r), by simp [storeAt, withHighHalf_toNat], onlyX_writeX _ r _⟩

/-- Settles O39: the field register is a location of the map, read and stored to by its rule. -/
theorem hostFieldAccess : Obligations.HostFieldAccess := by
  intro s rest r a ha
  refine ⟨fun hp => ?_, fun v hp => ?_⟩
  · exact ⟨_, fieldWord_toNat _, step_read_word hp (portLoc_freg r ha) rfl⟩
  · exact ⟨_, step_write_data hp (portLoc_freg r ha) (.freg r), by simp [storeAt], onlyF_writeF _ r _⟩

/-- Settles O41: the cell is a location of the map, which answers no word while it is Unwritten. -/
theorem hostCellAccess : Obligations.HostCellAccess := by
  intro s rest b k a hk ha
  have hl : portLoc s.nmax a = some (.cell b k) := portLoc_cell s.cfg.nmax_le hk (windowBase_eq b ▸ ha)
  refine ⟨fun hp => ⟨fun u hu => ?_, fun hu => ?_⟩, fun v hp => ?_⟩
  · exact ⟨_, fieldWord_toNat u, step_read_word hp hl (by simp [wordAt, hu])⟩
  · exact step_read_unwritten hp hl nofun (by simp [wordAt, hu])
  · exact ⟨_, _, step_write_data hp hl (.cell b k), State.readCell_writeCell_same _ _ _ _, reduceNat_val _,
      onlyCells_writeCell _ b k _⟩

/-- Settles O42: a bad access latches the offset; a good read returns a word that does not depend on the latch, and
a good write makes a store that keeps it. -/
theorem badHostAccessesLatch : Obligations.BadHostAccessesLatch := by
  intro s rest a
  refine ⟨step_read_bad, fun v => step_write_bad, fun t code info hp hr hs hi ht => ?_, fun v code info hp hw hc => ?_⟩
  · obtain ⟨loc, hl, hcmd⟩ := portLoc_of_readable s.cfg.nmax_le hr
    cases hw : wordAt s loc with
    | none => rw [step_read_unwritten hp hl hcmd hw] at ht; cases ht
    | some w =>
      have hw' : wordAt { s with err := code, errinfo := info } loc = some w := by
        rw [wordAt_withLatch, hw]
        · rintro rfl; exact hs (BitVec.eq_of_toNat_eq (portLoc_offset hl).1)
        · rintro rfl; exact hi (BitVec.eq_of_toNat_eq (portLoc_offset hl).1)
      rw [step_read_word hp hl hw] at ht
      cases ht
      exact step_read_word hp hl hw'
  · obtain ⟨loc, hl, hd⟩ := portLoc_of_writable hw hc
    refine ⟨_, step_write_data hp hl hd, ?_⟩
    rw [← storeAt_withLatch]
    exact step_write_data hp hl hd

/-- Settles O43: a read that completes adds a reply, and latches an error where it faults; the second of two equal
writes finds its value stored, or an error latched. -/
theorem hostAccessSideEffects : Obligations.HostAccessSideEffects := by
  refine ⟨fun s t rest a hp ht => ?_, fun s t u rest a v hc hp ht hu => ?_⟩
  · by_cases hr : Readable s.nmax a.toNat
    · obtain ⟨loc, hl, hcmd⟩ := portLoc_of_readable s.cfg.nmax_le hr
      cases hw : wordAt s loc with
      | none => rw [step_read_unwritten hp hl hcmd hw] at ht; cases ht
      | some w =>
        rw [step_read_word hp hl hw] at ht
        cases ht
        exact ⟨fun _ => rfl, fun _ => rfl, fun b _ => by cases b <;> rfl, fun _ => ⟨rfl, rfl⟩⟩
    · obtain ⟨hf, hx, hcells, -⟩ := onlyStatus_latched 6 a { s with pending := rest }
      rw [step_read_bad hp hr] at ht
      cases ht
      exact ⟨hf, hx, fun b k => by cases b; exacts [hcells .buf0 k, hcells .buf1 k], fun h => absurd h hr⟩
  · by_cases hw : Writable s.nmax a.toNat
    · obtain ⟨loc, hl, hd⟩ := portLoc_of_writable hw hc
      rw [step_write_data hp hl hd] at ht
      cases ht
      rw [step_write_data (storeAt_pending loc v _) (by simpa using hl) hd] at hu
      cases hu
      rw [storeAt_withPending, storeAt_storeAt]
    · rw [step_write_bad hp hw] at ht
      cases ht
      rw [step_write_bad (latched_pending 6 a _) (by simpa [latched_nmax] using hw)] at hu
      cases hu
      refine latched_of_set ?_ 6 a
      exact latched_err_ne_zero (code := 6) (by decide) a _

/-- Settles O44: the write stores to a data location, where the read finds the value. -/
theorem readReturnsLastWrite : Obligations.ReadReturnsLastWrite := by
  intro s rest a v hc hw hp
  obtain ⟨loc, hl, hd⟩ := portLoc_of_writable hw hc
  rw [(portLoc_offset hl).1]
  exact ⟨_, _, _, step_write_data hp hl hd,
    step_read_word (storeAt_pending loc v _) (by simpa using hl) (wordAt_storeAt hd v _), by simp, rfl,
    storedWord_of_half hd v, storedWord_of_not_half v⟩

end Sys2Proof.Machine
end

section
/-! The word of a command as its seven fields (30_encoding.md R80): a field put back in its place is the part of the
word its mask keeps, and a command's word holds the command's own fields. -/

namespace Sys2Proof
open Sys2Proof.Machine

/-- The mask of OPC, bits 31:24 (30_encoding.md R80). -/
def maskOPC : Word32 := 0xFF000000

/-- A field's value back in its place is what the field's mask keeps of the word. -/
theorem shiftLeft_field_eq_and {w : Word32} {v lo n : Nat} (h : v = w.toNat / 2 ^ lo % 2 ^ n) :
    BitVec.ofNat 32 v <<< lo = w &&& (BitVec.ofNat 32 (2 ^ n - 1) <<< lo) := by
  have hv : BitVec.ofNat 32 v = w >>> lo &&& BitVec.ofNat 32 (2 ^ n - 1) := by
    rw [h, ← Nat.and_two_pow_sub_one_eq_mod, BitVec.ofNat_and, ← Nat.shiftRight_eq_div_pow, ← BitVec.toNat_ushiftRight,
      BitVec.ofNat_toNat, BitVec.setWidth_eq]
  rw [hv, BitVec.shiftLeft_and_distrib, BitVec.shiftLeft_ushiftRight, BitVec.and_assoc, ← BitVec.shiftLeft_and_distrib,
    BitVec.allOnes_and]

theorem bufField_eq_shiftLeft (lo : Nat) (b : BufSel) : bufField lo b = BitVec.ofNat 32 (bufNumber b) <<< lo := by
  cases b with
  | buf0 => exact (BitVec.zero_shiftLeft lo).symm
  | buf1 => rfl

theorem bufNumber_lt (b : BufSel) : bufNumber b < 2 := by cases b <;> decide

theorem bufNumber_inj {b b' : BufSel} : bufNumber b = bufNumber b' ↔ b = b' := by cases b <;> cases b' <;> decide

section Fields
variable (w : Word32)

theorem opcField_opcOf : opcField (opcOf w) = w &&& maskOPC :=
  shiftLeft_field_eq_and (n := 8) (by rw [opcOf_eq]; omega)

theorem regField_rdOf : regField 21 (rdOf w) = w &&& maskRD := shiftLeft_field_eq_and (n := 3) (rdOf_val w)

theorem regField_rs1Of : regField 18 (rs1Of w) = w &&& maskRS1 := shiftLeft_field_eq_and (n := 3) (rs1Of_val w)

theorem regField_rs2Of : regField 15 (rs2Of w) = w &&& maskRS2 := shiftLeft_field_eq_and (n := 3) (rs2Of_val w)

theorem bufField_baOf : bufField 14 (baOf w) = w &&& maskBA :=
  (bufField_eq_shiftLeft 14 _).trans (shiftLeft_field_eq_and (n := 1) (bufNumber_baOf w))

theorem bufField_bbOf : bufField 13 (bbOf w) = w &&& maskBB :=
  (bufField_eq_shiftLeft 13 _).trans (shiftLeft_field_eq_and (n := 1) (bufNumber_bbOf w))

end Fields

/-- The opcode and the operand fields of a command, RSV being 0; a field that the opcode does not use is 0
(30_encoding.md R80, R82). -/
structure CommandFields where
  opc : Fin 256
  rd : RegNum := 0
  rs1 : RegNum := 0
  rs2 : RegNum := 0
  ba : BufSel := .buf0
  bb : BufSel := .buf0

namespace CommandFields
variable (c : CommandFields)

/-- The word of format C with these fields. -/
def word : Word32 := formatC c.opc.val c.rd.val c.rs1.val c.rs2.val (bufNumber c.ba) (bufNumber c.bb) 0

theorem toNat_word : c.word.toNat = c.opc.val * 2 ^ 24 + c.rd.val * 2 ^ 21 + c.rs1.val * 2 ^ 18 + c.rs2.val * 2 ^ 15 +
    bufNumber c.ba * 2 ^ 14 + bufNumber c.bb * 2 ^ 13 := by
  have ha := bufNumber_lt c.ba
  have hb := bufNumber_lt c.bb
  rw [word, formatC, BitVec.toNat_ofNat]
  omega

/-- The fields of the word are these fields. -/
@[simp] theorem fields_word : opcOf c.word = c.opc.val ∧ rdOf c.word = c.rd ∧ rs1Of c.word = c.rs1 ∧
    rs2Of c.word = c.rs2 ∧ baOf c.word = c.ba ∧ bbOf c.word = c.bb := by
  have ha := bufNumber_lt c.ba
  have hb := bufNumber_lt c.bb
  simp only [Fin.ext_iff, ← bufNumber_inj, opcOf_eq, rdOf_val, rs1Of_val, rs2Of_val, bufNumber_baOf, bufNumber_bbOf,
    toNat_word]
  omega

/-- The word is the union of its fields, each in its place. -/
theorem word_eq_or : c.word = opcField c.opc.val ||| regField 21 c.rd ||| regField 18 c.rs1 ||| regField 15 c.rs2 |||
    bufField 14 c.ba ||| bufField 13 c.bb := by
  obtain ⟨hopc, hrd, hrs1, hrs2, hba, hbb⟩ := c.fields_word
  have hrsv : c.word >>> 13 <<< 13 = c.word := by
    apply BitVec.eq_of_toNat_eq
    rw [BitVec.toNat_shiftLeft, BitVec.toNat_ushiftRight, Nat.shiftLeft_eq, Nat.shiftRight_eq_div_pow, toNat_word]
    have ha := bufNumber_lt c.ba
    have hb := bufNumber_lt c.bb
    omega
  rw [← hopc, ← hrd, ← hrs1, ← hrs2, ← hba, ← hbb, opcField_opcOf, regField_rdOf, regField_rs1Of, regField_rs2Of,
    bufField_baOf, bufField_bbOf]
  simp only [← BitVec.and_or_distrib_left]
  rw [BitVec.shiftLeft_ushiftRight] at hrsv
  exact hrsv.symm

end CommandFields

/-- The fields of each command, by the operand table of 30_encoding.md R82 and the opcodes of R84. -/
def fieldsOf : Instr → CommandFields
  | .nop => { opc := 0x00 }
  | .fadd fd fa fb => { opc := 0x01, rd := fd, rs1 := fa, rs2 := fb }
  | .fsub fd fa fb => { opc := 0x02, rd := fd, rs1 := fa, rs2 := fb }
  | .fmul fd fa fb => { opc := 0x03, rd := fd, rs1 := fa, rs2 := fb }
  | .fdiv fd fa fb => { opc := 0x04, rd := fd, rs1 := fa, rs2 := fb }
  | .finv fd fa => { opc := 0x05, rd := fd, rs1 := fa }
  | .fpow fd fa xe => { opc := 0x06, rd := fd, rs1 := fa, rs2 := xe }
  | .feq xd fa fb => { opc := 0x07, rd := xd, rs1 := fa, rs2 := fb }
  | .fnew fd xs => { opc := 0x08, rd := fd, rs1 := xs }
  | .fld fd b xi => { opc := 0x09, rd := fd, rs1 := xi, ba := b }
  | .fst fs b xi => { opc := 0x0A, rs1 := xi, rs2 := fs, ba := b }
  | .brev b xn => { opc := 0x10, rs1 := xn, ba := b }
  | .brperm b xn => { opc := 0x11, rs1 := xn, ba := b }
  | .nttf b xn => { opc := 0x12, rs1 := xn, ba := b }
  | .ntti b xn => { opc := 0x13, rs1 := xn, ba := b }
  | .sqext t f xl => { opc := 0x14, rs1 := xl, ba := f, bb := t }
  | .clrerr => { opc := 0x20 }

@[simp] theorem regField_zero (lo : Nat) : regField lo 0 = 0 := BitVec.zero_shiftLeft lo

@[simp] theorem bufField_buf0 (lo : Nat) : bufField lo .buf0 = 0 := rfl

/-- The encoder's word is the word of format C with the command's fields. -/
theorem encode_eq_word (i : Instr) : encode i = (fieldsOf i).word := by
  rw [CommandFields.word_eq_or]
  cases i <;> simp [encode, fieldsOf]

/-- A word whose unused bits are 0 is what the masks of OPC and of the used fields keep of it. -/
theorem and_used_eq_self {w used : Word32} (h : w &&& (0x00FFFFFF &&& ~~~used) = 0) : w &&& (maskOPC ||| used) = w := by
  have hnot : 0x00FFFFFF &&& ~~~used = ~~~(maskOPC ||| used) := (BitVec.not_or (x := maskOPC)).symm
  calc w &&& (maskOPC ||| used) = w &&& (maskOPC ||| used) ||| w &&& ~~~(maskOPC ||| used) := by
        rw [← hnot, h]; exact BitVec.or_zero.symm
    _ = w := by rw [← BitVec.and_or_distrib_left, BitVec.or_not_self, BitVec.and_allOnes]

/-- Decoding loses no bit of the word: an accepted word is the union of OPC and the fields its opcode uses. -/
theorem encode_of_decode {w : Word32} {i : Instr} (h : decode w = .ok i) : encode i = w := by
  have hopcode := opcField_opcOf w
  unfold decode at h
  split at h
  case h_18 => cases h
  all_goals
    rename_i hopc
    rw [hopc] at hopcode
    obtain ⟨hz, rfl⟩ := checkUnused_ok h
    refine Eq.trans ?_ (and_used_eq_self hz)
    simp [encode, hopcode, regField_rdOf, regField_rs1Of, regField_rs2Of, bufField_baOf, bufField_bbOf,
      BitVec.and_or_distrib_left, BitVec.or_assoc]

/-- A command's word decodes to no other command: the decoder reads the command's own fields. -/
theorem eq_of_decode_encode {i j : Instr} (h : decode (encode i) = .ok j) : j = i := by
  rw [encode_eq_word] at h
  cases i
  all_goals
    simp only [decode, fieldsOf, CommandFields.fields_word, Fin.coe_ofNat_eq_mod, Nat.reduceMod] at h
    exact (checkUnused_ok h).2.symm

end Sys2Proof
end

section
/-! The rows of the opcode map (30_encoding.md R84): the words a row admits decode to its mnemonic, and every command's
word lies in a row, so that decoding and encoding are inverse to each other. -/

namespace Sys2Proof
open Sys2Proof.Machine

/-- Every command's word lies in its own row of the opcode map. -/
theorem encodeInTable (i : Instr) : Laws.EncodeInTable.Statement i := by
  cases i
  exacts [Laws.EncodeInTable.nop, Laws.EncodeInTable.fadd .., Laws.EncodeInTable.fsub .., Laws.EncodeInTable.fmul ..,
    Laws.EncodeInTable.fdiv .., Laws.EncodeInTable.finv .., Laws.EncodeInTable.fpow .., Laws.EncodeInTable.feq ..,
    Laws.EncodeInTable.fnew .., Laws.EncodeInTable.fld .., Laws.EncodeInTable.fst .., Laws.EncodeInTable.brev ..,
    Laws.EncodeInTable.brperm .., Laws.EncodeInTable.nttf .., Laws.EncodeInTable.ntti .., Laws.EncodeInTable.sqext ..,
    Laws.EncodeInTable.clrerr]

theorem exists_row_of_encode (i : Instr) :
    ∃ r ∈ opcodeTable, r.mnemonic = mnemonicOf i ∧ encode i &&& r.mask = r.matchWord := by
  simpa [OpcodeRow.admits] using (encodeInTable i).1

/-- A row's mask is OPC with the row's must-be-zero bits, and its match value is an opcode in place. -/
theorem row_masks : ∀ r ∈ opcodeTable, r.mask &&& maskOPC = maskOPC ∧ r.mask &&& r.mustZero = r.mustZero ∧
    maskOPC ||| r.mustZero = r.mask ∧ r.matchWord &&& maskOPC = r.matchWord ∧ r.matchWord &&& r.mustZero = 0 := by
  decide

/-- The two tests of decode(w) are the one test by mask and match (30_encoding.md R83). -/
theorem and_mask_eq_match_iff {w : Word32} {r : OpcodeRow} (hr : r ∈ opcodeTable) :
    w &&& r.mask = r.matchWord ↔ w &&& maskOPC = r.matchWord ∧ w &&& r.mustZero = 0 := by
  obtain ⟨hopc, hzero, hmask, hmatch, hclear⟩ := row_masks r hr
  constructor
  · intro h
    constructor
    · rw [← hopc, ← BitVec.and_assoc, h, hmatch]
    · rw [← hzero, ← BitVec.and_assoc, h, hclear]
  · rintro ⟨h, hz⟩
    rw [← hmask, BitVec.and_or_distrib_left, h, hz]
    exact BitVec.or_zero

theorem opcOf_and_maskOPC (w : Word32) : opcOf (w &&& maskOPC) = opcOf w := by
  rw [opcOf, BitVec.extractLsb_and, show maskOPC.extractLsb 31 24 = BitVec.allOnes _ from by decide,
    BitVec.and_allOnes, opcOf]

/-- A word in a row decodes, to the row's mnemonic: its opcode is the row's, whose second test it passes. -/
theorem decode_of_row {w : Word32} {r : OpcodeRow} (hr : r ∈ opcodeTable) (h : w &&& r.mask = r.matchWord) :
    ∃ i, decode w = .ok i ∧ mnemonicOf i = r.mnemonic := by
  obtain ⟨hopcode, hz⟩ := (and_mask_eq_match_iff hr).1 h
  have hopc : opcOf w = opcOf r.matchWord := by rw [← hopcode, opcOf_and_maskOPC]
  simp only [opcodeTable, opcodeRowsControl, opcodeRowsField, opcodeRowsBuffer, List.cons_append, List.nil_append,
    List.mem_cons, List.not_mem_nil, or_false] at hr
  rcases hr with rfl | rfl | rfl | rfl | rfl | rfl | rfl | rfl | rfl | rfl | rfl | rfl | rfl | rfl | rfl | rfl | rfl
  all_goals
    unfold decode
    rw [hopc]
    exact ⟨_, if_pos hz, rfl⟩

theorem decode_encode (i : Instr) : decode (encode i) = .ok i := by
  obtain ⟨r, hr, -, hrow⟩ := exists_row_of_encode i
  obtain ⟨j, hj, -⟩ := decode_of_row hr hrow
  rw [hj, eq_of_decode_encode hj]

/-- Settles O2: an accepted word is its command's word, which its own row of the opcode map admits. -/
theorem decodeAndEncodeAgree : Obligations.DecodeAndEncodeAgree :=
  fun _ i => ⟨encode_of_decode, fun h => h ▸ decode_encode i⟩

/-- A command is decoded from one word, the one of format C with the command's fields. -/
theorem decode_eq_ok_iff_word {w : Word32} {i : Instr} : decode w = .ok i ↔ w = (fieldsOf i).word := by
  rw [decodeAndEncodeAgree, encode_eq_word, eq_comm]

/-- Settles O1: the five words are the encoder's words of the five commands. -/
theorem workedEncodingsDecode : Obligations.WorkedEncodingsDecode := by
  unfold Obligations.WorkedEncodingsDecode
  simp only [decodeAndEncodeAgree _ _]
  decide

/-- Settles O3: an accepted word lies in its command's row, and a word in a row is accepted with its mnemonic. -/
theorem decodesByMaskAndMatch : Obligations.DecodesByMaskAndMatch := by
  intro w m
  constructor
  · rintro ⟨i, hi, rfl⟩
    have h := exists_row_of_encode i
    rwa [encode_of_decode hi] at h
  · rintro ⟨r, hr, rfl, h⟩
    exact decode_of_row hr h

end Sys2Proof
end

section
/-! Illegal words (30_encoding.md R85), and what the unit does with a word written to CMD (60_exceptions.md R204). -/

namespace Sys2Proof.Machine

/-- The opcodes of the map are those that 30_encoding.md R85 does not reserve. -/
theorem opcOf_row : ∀ r ∈ opcodeTable,
    opcOf r.matchWord ≤ 0x0A ∨ (0x10 ≤ opcOf r.matchWord ∧ opcOf r.matchWord ≤ 0x14) ∨ opcOf r.matchWord = 0x20 := by
  decide

/-- The match value of a row says which bits must be zero: no two rows share it (30_encoding.md R83). -/
theorem mustZero_eq_of_match_eq : ∀ r ∈ opcodeTable, ∀ r' ∈ opcodeTable, r.matchWord = r'.matchWord →
    r.mustZero = r'.mustZero := by
  decide

/-- No illegal word is in a row of the opcode map. -/
theorem IllegalWord.not_row {w : Word32} (hw : IllegalWord w) {r : OpcodeRow} (hr : r ∈ opcodeTable) :
    w &&& r.mask ≠ r.matchWord := by
  intro h
  obtain ⟨hopcode, hz⟩ := (and_mask_eq_match_iff hr).1 h
  have hopc : w.toNat / 2 ^ 24 = opcOf r.matchWord := by rw [← hopcode, opcOf_and_maskOPC, opcOf_eq]
  have hassigned := opcOf_row r hr
  rcases hw with hres | hres | hres | ⟨r', hr', hopcode', hne⟩
  · omega
  · omega
  · omega
  · rw [mustZero_eq_of_match_eq r' hr' r hr (hopcode'.symm.trans hopcode)] at hne
    exact hne hz

theorem IllegalWord.decode_ne_ok {w : Word32} (hw : IllegalWord w) (i : Instr) : decode w ≠ .ok i := by
  intro h
  obtain ⟨r, hr, -, hrow⟩ := (decodesByMaskAndMatch w _).1 ⟨i, h, rfl⟩
  exact hw.not_row hr hrow

/-- A write to CMD issues its word. -/
theorem step_cmd {s : State} {w : Word32} {rest : List HostInput} (hp : s.pending = .write cmdOffset w :: rest) :
    step s = issueCommand w { s with pending := rest } := step_write hp

theorem issueCommand_blocked {s : State} {w : Word32} (he : s.err ≠ 0) (hw : w ≠ clrerrWord) :
    issueCommand w s = .next s := by
  rw [issueCommand, if_pos he, if_neg hw]

theorem issueCommand_of_error {s : State} {w : Word32} {e : DecodeError} (he : s.err = 0) (hw : decode w = .error e) :
    issueCommand w s = .next { s with err := 3, errinfo := w } := by
  rw [issueCommand, if_neg (not_not.2 he), hw]
  exact congrArg Host.Outcome.next (raiseError_of_clear he .illegalCommand w)

/-- Settles O4: no row admits an illegal word, so it does not decode, and CLRERR's word is none. -/
theorem illegalWordsRaise : Obligations.IllegalWordsRaise := by
  intro s w rest hp hw
  rw [step_cmd hp]
  refine ⟨fun he => ?_, fun he => ?_⟩
  · cases hd : decode w with
    | ok i => exact (hw.decode_ne_ok i hd).elim
    | error e => exact issueCommand_of_error he hd
  · refine issueCommand_blocked he ?_
    rintro rfl
    exact hw.decode_ne_ok .clrerr rfl

end Sys2Proof.Machine
end

section
/-! The field operations as operations of the field of integers mod P, P being prime: powers, inverses and quotients
(40_field_arithmetic.md R106, R113). -/

namespace Sys2Proof.Machine
variable {a b c : FieldElem}

theorem fieldValue_ne_zero (h : a ≠ 0) : fieldValue a ≠ 0 := fun h0 =>
  h (fieldValue_injective (h0.trans fieldValue_zero.symm))

/-- Fermat's theorem for a nonzero field element. -/
theorem fieldValue_pow_eq_one (h : a ≠ 0) : fieldValue a ^ (P - 1) = 1 :=
  have : Fact P.Prime := ⟨P_prime⟩
  ZMod.pow_card_sub_one_eq_one (fieldValue_ne_zero h)

/-- The inverse law of 40_field_arithmetic.md R113. -/
theorem fmul_finv_self (h : a ≠ 0) : fmul (finv a) a = 1 := by
  apply fieldValue_injective
  rw [fieldValue_fmul, finv, fieldValue_fpow a (by decide), ← pow_succ, fieldValue_one]
  exact fieldValue_pow_eq_one h

/-- The quotient law of 40_field_arithmetic.md R113: fdiv(a, b) is the one c with c · b = a. -/
theorem fmul_eq_iff_eq_fdiv (h : b ≠ 0) : fmul c b = a ↔ c = fdiv a b := by
  have : Fact P.Prime := ⟨P_prime⟩
  have hinv : fieldValue (finv b) = (fieldValue b)⁻¹ :=
    eq_inv_of_mul_eq_one_left (by rw [← fieldValue_fmul, fmul_finv_self h, fieldValue_one])
  rw [← fieldValue_injective.eq_iff, ← fieldValue_injective.eq_iff (b := fdiv a b), fdiv, fieldValue_fmul,
    fieldValue_fmul, hinv, eq_mul_inv_iff_mul_eq₀ (fieldValue_ne_zero h)]

theorem fpow_one (a : FieldElem) : fpow a 1 = a :=
  fieldValue_injective (by rw [fieldValue_fpow a le_rfl, pow_one])

theorem fpow_zero_base {e : Nat} (h : 1 ≤ e) : fpow 0 e = 0 :=
  fieldValue_injective (by rw [fieldValue_fpow 0 h, fieldValue_zero, zero_pow (by omega)])

theorem fpow_P_sub_one (h : a ≠ 0) : fpow a (P - 1) = 1 :=
  fieldValue_injective (by rw [fieldValue_fpow a (by decide), fieldValue_pow_eq_one h, fieldValue_one])

end Sys2Proof.Machine
end

section
/-! What each field arithmetic command with an operand check answers, one equation for each outcome of the check
(40_field_arithmetic.md R104 to R106, R109, R110). -/

namespace Sys2Proof.Machine

/-- A command error latches the command's own word (60_exceptions.md R203). -/
theorem commandError_eq_word (e : ErrorKind) (i : Instr) (s : State) :
    commandError e i s = .next (latched (errorCode e) (fieldsOf i).word s) := by
  rw [commandError_eq, encode_eq_word]

section
variable {s t : State} {fd fa fb fs xe xi : RegNum} {b : BufSel}

theorem exec_fdiv_of_eq_zero (h : s.readF fb = 0) :
    exec (.fdiv fd fa fb) s = .next (latched 1 (fieldsOf (.fdiv fd fa fb)).word s) :=
  (if_pos h).trans (commandError_eq_word _ _ s)

theorem exec_fdiv_of_ne_zero (h : s.readF fb ≠ 0) :
    exec (.fdiv fd fa fb) s = .next (s.writeF fd (fdiv (s.readF fa) (s.readF fb))) := if_neg h

theorem exec_finv_of_eq_zero (h : s.readF fa = 0) :
    exec (.finv fd fa) s = .next (latched 1 (fieldsOf (.finv fd fa)).word s) :=
  (if_pos h).trans (commandError_eq_word _ _ s)

theorem exec_finv_of_ne_zero (h : s.readF fa ≠ 0) :
    exec (.finv fd fa) s = .next (s.writeF fd (finv (s.readF fa))) := if_neg h

theorem exec_fpow_of_lt_one (h : s.readS64 xe < 1) :
    exec (.fpow fd fa xe) s = .next (latched 4 (fieldsOf (.fpow fd fa xe)).word s) :=
  (if_pos h).trans (commandError_eq_word _ _ s)

theorem exec_fpow_of_one_le (h : 1 ≤ s.readS64 xe) :
    exec (.fpow fd fa xe) s = .next (s.writeF fd (fpow (s.readF fa) (s.readS64 xe).toNat)) := if_neg (not_lt.2 h)

/-- The index check of FLD and FST fails below 0 and from NMAX up. -/
theorem validIndex_ne_true {nmax : Nat} {i : Int} (h : i < 0 ∨ (nmax : Int) ≤ i) : ¬ validIndex nmax i = true := by
  rw [validIndex_iff]; omega

theorem exec_fld_of_bad_index (h : s.readS64 xi < 0 ∨ (s.nmax : Int) ≤ s.readS64 xi) :
    exec (.fld fd b xi) s = .next (latched 5 (fieldsOf (.fld fd b xi)).word s) :=
  (if_neg (validIndex_ne_true h)).trans (commandError_eq_word _ _ s)

theorem exec_fld_of_written {v : FieldElem} (h : validIndex s.nmax (s.readS64 xi) = true)
    (hv : s.readCell b (s.readS64 xi).toNat = some v) : exec (.fld fd b xi) s = .next (s.writeF fd v) := by
  rw [exec, execFld, if_pos h, hv]

theorem exec_fld_of_unwritten (h : validIndex s.nmax (s.readS64 xi) = true)
    (hv : s.readCell b (s.readS64 xi).toNat = none) : exec (.fld fd b xi) s = .fault .uninitRead := by
  rw [exec, execFld, if_pos h, hv]

theorem exec_fst_of_bad_index (h : s.readS64 xi < 0 ∨ (s.nmax : Int) ≤ s.readS64 xi) :
    exec (.fst fs b xi) s = .next (latched 5 (fieldsOf (.fst fs b xi)).word s) :=
  (if_neg (validIndex_ne_true h)).trans (commandError_eq_word _ _ s)

theorem exec_fst_of_good_index (h : validIndex s.nmax (s.readS64 xi) = true) :
    exec (.fst fs b xi) s = .next (s.writeCell b (s.readS64 xi).toNat (s.readF fs)) := if_pos h

/-- A command whose answer is a write to F[fd] leaves the written element there. -/
theorem readF_of_next_writeF {r : Result} {v : FieldElem} (hw : r = .next (s.writeF fd v)) (h : r = .next t) :
    t.readF fd = v := by
  cases hw.symm.trans h
  exact s.readF_writeF_same fd v

end

/-- FEQ's word compares the elements as integers: each is reduced. -/
theorem comparisonWord_beq (a b : FieldElem) : comparisonWord (a == b) = if a.val = b.val then 1 else 0 := by
  simp [comparisonWord, Fin.ext_iff]

end Sys2Proof.Machine
end

section
/-! The field arithmetic commands: word, result, error and frame of each, and the laws of the inverse, the quotient and
the power (40_field_arithmetic.md R101 to R110, R113). -/

namespace Sys2Proof.Machine

/-- Settles O7: the divisor decides between the error and the quotient's write. -/
theorem divideResult : Obligations.DivideResult := fun s fd _ _ =>
  ⟨fun _ => decode_eq_ok_iff_word, exec_fdiv_of_eq_zero, fun h =>
    ⟨_, exec_fdiv_of_ne_zero h, by rw [State.readF_writeF_same, fdiv_val], onlyF_writeF s fd _⟩⟩

/-- Settles O8: the source decides between the error and the inverse's write. -/
theorem inverseResult : Obligations.InverseResult := fun s fd _ =>
  ⟨fun _ => decode_eq_ok_iff_word, exec_finv_of_eq_zero, fun h =>
    ⟨_, exec_finv_of_ne_zero h, by rw [State.readF_writeF_same, finv_val], onlyF_writeF s fd _⟩⟩

/-- Settles O9: the signed exponent decides between the error and the power's write. -/
theorem powerResult : Obligations.PowerResult := fun s fd _ _ =>
  ⟨fun _ => decode_eq_ok_iff_word, exec_fpow_of_lt_one, fun h =>
    ⟨_, exec_fpow_of_one_le h, by rw [State.readF_writeF_same, fpow_val _ (by omega)], onlyF_writeF s fd _⟩⟩

/-- Settles O10: the results are finv(a) and fdiv(a, b), of which the laws hold since P is prime. -/
theorem inverseAndQuotientLaws : Obligations.InverseAndQuotientLaws := by
  constructor
  · intro s t fd fa h ht
    rw [readF_of_next_writeF (exec_finv_of_ne_zero h) ht]
    exact congrArg Fin.val (fmul_finv_self h)
  · intro s t fd fa fb h ht c
    rw [readF_of_next_writeF (exec_fdiv_of_ne_zero h) ht, ← fmul_eq_iff_eq_fdiv h, Fin.ext_iff, fmul_val]

/-- Settles O11: the result is fpow(a, e) for an exponent e ≥ 1, and each corner case is one of this function. -/
theorem powerCornerCases : Obligations.PowerCornerCases := by
  intro s t fd fa xe ht
  have hP : P = 998244353 := rfl
  have hpow (h : 1 ≤ s.readS64 xe) : t.readF fd = fpow (s.readF fa) (s.readS64 xe).toNat :=
    readF_of_next_writeF (exec_fpow_of_one_le h) ht
  refine ⟨fun he => ?_, fun he ha => ?_, fun he ha => ?_, fun he ha u hu => ?_⟩
  · rw [hpow (by omega), he]
    exact fpow_one _
  · rw [hpow he, ha]
    exact fpow_zero_base (by omega)
  · rw [hpow (by omega), show (s.readS64 xe).toNat = P - 1 by omega]
    exact fpow_P_sub_one ha
  · rw [hpow (by omega), show (s.readS64 xe).toNat = P - 2 by omega,
      readF_of_next_writeF (exec_finv_of_ne_zero ha) hu, finv]

/-- Settles O6: each command's one write is its field operation on the old source values. -/
theorem addSubMulResults : Obligations.AddSubMulResults := fun s fd fa fb =>
  ⟨⟨fun _ => decode_eq_ok_iff_word, _, rfl, by rw [State.readF_writeF_same, fadd_val], onlyF_writeF s fd _⟩,
    ⟨fun _ => decode_eq_ok_iff_word, _, rfl, by rw [State.readF_writeF_same, fsub_val], onlyF_writeF s fd _⟩,
    ⟨fun _ => decode_eq_ok_iff_word, _, rfl, by rw [State.readF_writeF_same, fmul_val], onlyF_writeF s fd _⟩⟩

/-- Settles O12: the one write is the comparison's word. -/
theorem equalityResult : Obligations.EqualityResult := fun s xd fa fb =>
  ⟨fun _ => decode_eq_ok_iff_word, _, rfl, by rw [State.readX_writeX_same]; exact comparisonWord_beq _ _,
    onlyX_writeX s xd _⟩

/-- Settles O13: the one write is the reduced integer. -/
theorem constructResult : Obligations.ConstructResult := fun s fd _ =>
  ⟨fun _ => decode_eq_ok_iff_word, _, rfl, by rw [State.readF_writeF_same, reduceInt_val], onlyF_writeF s fd _⟩

/-- Settles O14: a bad index raises the error, a good one names a written cell, whose element is loaded, or an
Unwritten one. -/
theorem loadResult : Obligations.LoadResult := by
  intro s fd b xi
  refine ⟨fun _ => decode_eq_ok_iff_word, exec_fld_of_bad_index, fun h0 hn => ?_⟩
  have hi := validIndex_iff.2 ⟨h0, hn⟩
  exact ⟨fun v hv => ⟨_, exec_fld_of_written hi hv, s.readF_writeF_same fd v, onlyF_writeF s fd v⟩,
    exec_fld_of_unwritten hi⟩

/-- Settles O15: a bad index raises the error, a good one names the one cell the command writes. -/
theorem storeResult : Obligations.StoreResult := fun s _ b xi =>
  ⟨fun _ => decode_eq_ok_iff_word, exec_fst_of_bad_index, fun h0 hn =>
    ⟨_, exec_fst_of_good_index (validIndex_iff.2 ⟨h0, hn⟩), s.readCell_writeCell_same _ b _,
      onlyCells_writeCell s b (s.readS64 xi).toNat _⟩⟩

end Sys2Proof.Machine
end

section
/-! The function rev_n: its recursion, and that it is its own inverse (41_bit_reversal.md R140, R144). -/

namespace Sys2Proof.Machine

theorem bitRev_zero (L : Nat) : bitRev L 0 = 0 := by
  apply Nat.eq_of_testBit_eq
  simp [bitRev_testBit]

/-- The second line of the recursion of 41_bit_reversal.md R140. -/
theorem bitRev_eq_or {L : Nat} (hL : 0 < L) (i : Nat) :
    bitRev L i = (bitRev L (i / 2) / 2) ||| ((i % 2) <<< (L - 1)) := by
  apply Nat.eq_of_testBit_eq
  intro t
  rw [Nat.testBit_or, Nat.testBit_div_two, Nat.testBit_shiftLeft, bitRev_testBit, bitRev_testBit, Nat.testBit_div_two,
    Nat.testBit_mod_two_pow (j := 1)]
  rcases Nat.lt_trichotomy (t + 1) L with h | rfl | h
  · simp [h, show t < L by omega, show ¬ L - 1 ≤ t by omega, show L - 1 - (t + 1) + 1 = L - 1 - t by omega]
  · simp
  · simp [show ¬ t < L by omega, show ¬ t + 1 < L by omega, show ¬ t - (L - 1) < 1 by omega]

theorem bitRev_bitRev {L i : Nat} (h : i < 2 ^ L) : bitRev L (bitRev L i) = i := by
  apply Nat.eq_of_testBit_eq
  intro t
  rw [bitRev_testBit, bitRev_testBit]
  by_cases ht : t < L
  · rw [show L - 1 - (L - 1 - t) = t by omega]
    simp [ht, show L - 1 - t < L by omega]
  · have hi : i.testBit t = false := Nat.testBit_lt_two_pow (h.trans_le (Nat.pow_le_pow_right two_pos (by omega)))
    rw [decide_eq_false ht, Bool.false_and, hi]

/-- Settles O19: reversing the bits twice puts each bit back in its place. -/
theorem bitReversalIsInvolution : Obligations.BitReversalIsInvolution :=
  fun L i h => ⟨bitRev_lt L i, bitRev_bitRev h⟩

end Sys2Proof.Machine
end

section
/-! The reorder step: it carries the element at rev_n(p) to p, so that doing it twice changes nothing
(41_bit_reversal.md R142, R144). -/

namespace Sys2Proof.Machine

theorem getElem?_eq_some_elemAt {a : List FieldElem} {p : Nat} (h : p < a.length) : a[p]? = some (elemAt a p) := by
  rw [elemAt_of_lt h, List.getElem?_eq_getElem h]

theorem elemAt_swapElems {a : List FieldElem} {i j : Nat} (hi : i < a.length) (hj : j < a.length) (p : Nat) :
    elemAt (swapElems a i j) p = if p = j then elemAt a i else if p = i then elemAt a j else elemAt a p := by
  simp [swapElems, elemAt_set, hi, hj]

/-- The elements after the swaps of the indices below m, for the length 2^L. -/
def reorderPrefix (L : Nat) (a : List FieldElem) (m : Nat) : List FieldElem :=
  (List.range m).foldl (fun a i => if i < bitRev L i then swapElems a i (bitRev L i) else a) a

theorem reorderPrefix_succ (L : Nat) (a : List FieldElem) (m : Nat) :
    reorderPrefix L a (m + 1) =
      if m < bitRev L m then swapElems (reorderPrefix L a m) m (bitRev L m) else reorderPrefix L a m := by
  simp [reorderPrefix, List.range_succ]

@[simp] theorem reorderPrefix_length (L : Nat) (a : List FieldElem) (m : Nat) :
    (reorderPrefix L a m).length = a.length := foldl_length_eq _ (fun a i => by split <;> simp) _ a

theorem reorder_two_pow (L : Nat) (a : List FieldElem) : reorder (2 ^ L) a = reorderPrefix L a (2 ^ L) := by
  rw [reorder, Nat.log2_two_pow, reorderPrefix]

/-- The swaps of the indices below m have exchanged the pairs {p, rev_n(p)} whose smaller index is below m. -/
theorem elemAt_reorderPrefix {L : Nat} {a : List FieldElem} (ha : a.length = 2 ^ L) {m : Nat} (hm : m ≤ 2 ^ L)
    {p : Nat} (hp : p < 2 ^ L) :
    elemAt (reorderPrefix L a m) p = if min p (bitRev L p) < m then elemAt a (bitRev L p) else elemAt a p := by
  induction m generalizing p with
  | zero => rfl
  | succ m ih =>
    have ih {p : Nat} (hp : p < 2 ^ L) := ih (by omega) hp
    have hlen : (reorderPrefix L a m).length = 2 ^ L := by rw [reorderPrefix_length, ha]
    have hrm := bitRev_lt L m
    have hrev : bitRev L (bitRev L m) = m := bitRev_bitRev hm
    have hpair : bitRev L p = m ↔ p = bitRev L m :=
      ⟨fun h => h ▸ (bitRev_bitRev hp).symm, fun h => h ▸ hrev⟩
    rw [reorderPrefix_succ]
    by_cases hswap : m < bitRev L m
    · rw [if_pos hswap, elemAt_swapElems (hlen ▸ hm) (hlen ▸ hrm), ih hm, ih hrm, ih hp]
      by_cases hhigh : p = bitRev L m
      · rw [if_pos hhigh, if_neg (by omega), if_pos (by omega), hpair.2 hhigh]
      · rw [if_neg hhigh]
        by_cases hlow : p = m
        · subst hlow
          rw [if_pos rfl, if_neg (by omega), if_pos (by omega)]
        · rw [if_neg hlow]
          exact if_congr (by omega) rfl rfl
    · rw [if_neg hswap, ih hp]
      by_cases hfixed : bitRev L p = p
      · rw [hfixed, ite_self, ite_self]
      · have hself : p = m → bitRev L p = bitRev L m := congrArg _
        exact if_congr (by omega) rfl rfl

/-- After all the swaps each index holds the element that stood at its reversed index. -/
theorem elemAt_reorder {L : Nat} {a : List FieldElem} (ha : a.length = 2 ^ L) {p : Nat} (hp : p < 2 ^ L) :
    elemAt (reorder (2 ^ L) a) p = elemAt a (bitRev L p) := by
  rw [reorder_two_pow, elemAt_reorderPrefix ha le_rfl hp, if_pos (by omega)]

theorem getElem?_reorder {L : Nat} {a : List FieldElem} (ha : a.length = 2 ^ L) {p : Nat} (hp : p < 2 ^ L) :
    (reorder (2 ^ L) a)[p]? = a[bitRev L p]? := by
  rw [getElem?_eq_some_elemAt (by rwa [reorder_length, ha]), elemAt_reorder ha hp,
    getElem?_eq_some_elemAt (ha ▸ bitRev_lt L p)]

theorem reorder_reorder {L : Nat} {a : List FieldElem} (ha : a.length = 2 ^ L) :
    reorder (2 ^ L) (reorder (2 ^ L) a) = a := by
  apply List.ext_getElem?'
  intro p hp
  have hp : p < 2 ^ L := by simpa [ha] using hp
  rw [getElem?_reorder (by rw [reorder_length, ha]) hp, getElem?_reorder ha (bitRev_lt L p), bitRev_bitRev hp]

end Sys2Proof.Machine
end

section
/-! Writing a buffer's cells back as they were read, after a command has replaced them. -/

namespace Sys2Proof.Machine

theorem Memory.writeRange_writeRange_same {m : Memory} (h : m.wf) (start : Nat) {vs ws : List FieldElem}
    (hl : vs.length = ws.length) : (m.writeRange start vs).writeRange start ws = m.writeRange start ws := by
  refine Memory.eq_of_read_eq (wf_writeRange (wf_writeRange h _ _) _ _) (wf_writeRange h _ _) fun k => ?_
  rw [read_writeRange, read_writeRange, read_writeRange, hl]
  split <;> rfl

theorem State.setBuffer_setBuffer_same (s : State) (b : BufSel) (m m' : Memory) :
    (s.setBuffer b m).setBuffer b m' = s.setBuffer b m' := by cases b <;> rfl

/-- Cells that are replaced and then written back as they were leave the whole state as it was. -/
theorem State.writeCells_writeCells_restore {s : State} {b : BufSel} {n : Nat} {a vs : List FieldElem}
    (h : (s.buffer b).wf) (ha : s.readCells b n = some a) (hl : vs.length = a.length) :
    (s.writeCells b vs).writeCells b a = s := by
  rw [State.writeCells, State.writeCells, State.setBuffer_setBuffer_same, State.setBuffer_buffer_same,
    Memory.writeRange_writeRange_same h 0 hl, Memory.writeRange_readRange_self h ha, State.setBuffer_self]

/-- The cells just written are read back. -/
theorem State.readCells_writeCells_same (s : State) (b : BufSel) (vs : List FieldElem) :
    (s.writeCells b vs).readCells b vs.length = some vs :=
  readCells_eq_some.2 ⟨rfl, fun k hk => by rw [State.readCell_writeCells, if_pos ⟨rfl, hk⟩]⟩

end Sys2Proof.Machine
end

section
/-! The check of transform lengths, and what each command that makes it answers (41_bit_reversal.md R141 to R143). -/

namespace Sys2Proof.Machine
variable {s t : State} {b : BufSel} {xn : RegNum} {i : Instr} {g : Nat → List FieldElem → List FieldElem} {L : Nat}

theorem validLength_of_eq_two_pow (hL : L ≤ s.cfg.log2Nmax.val) (h : s.readS64 xn = 2 ^ L) :
    validLength s.nmax (s.readS64 xn) = true := validLength_nmax_iff.2 ⟨L, hL, by rw [h]; norm_cast⟩

theorem validLength_eq_false_of_ne_two_pow (h : ∀ L ≤ s.cfg.log2Nmax.val, s.readS64 xn ≠ 2 ^ L) :
    validLength s.nmax (s.readS64 xn) = false := by
  rw [← Bool.not_eq_true]
  intro hv
  obtain ⟨L, hL, hn⟩ := validLength_nmax_iff.1 hv
  exact h L hL (by rw [hn]; norm_cast)

theorem toNat_of_eq_two_pow {n : Int} (h : n = 2 ^ L) : n.toNat = 2 ^ L := by
  rw [h]; norm_cast

theorem inPlaceCommand_of_bad_length (i : Instr) (b : BufSel) (g : Nat → List FieldElem → List FieldElem)
    (h : validLength s.nmax (s.readS64 xn) = false) :
    inPlaceCommand i b xn g s = .next (latched 2 (fieldsOf i).word s) := by
  rw [inPlaceCommand_bad h, encode_eq_word]

theorem exec_brev_of_bad_length (b : BufSel) (h : validLength s.nmax (s.readS64 xn) = false) :
    exec (.brev b xn) s = .next (latched 2 (fieldsOf (.brev b xn)).word s) :=
  (if_neg (by rw [h]; decide)).trans (commandError_eq_word _ _ s)

theorem exec_brev_of_good_length (b : BufSel) (h : validLength s.nmax (s.readS64 xn) = true) :
    exec (.brev b xn) s = .next (s.writeCells b ((revTable (s.readS64 xn).toNat).map reduceNat)) := if_pos h

/-- With a valid length an in-place command writes cells or stops, and latches nothing. -/
theorem inPlaceCommand_sameStatus (hv : validLength s.nmax (s.readS64 xn) = true)
    (h : inPlaceCommand i b xn g s = .next t) : SameStatus s t := by
  cases ha : s.readCells b (s.readS64 xn).toNat with
  | none => rw [inPlaceCommand_uninit hv ha] at h; cases h
  | some a => rw [inPlaceCommand_good hv ha] at h; cases h; simp [SameStatus]

/-- Settles O22: a bad length raises the error in each of the four commands; with a valid one each writes cells or
stops. -/
theorem lengthCheckRule : Obligations.LengthCheckRule := by
  intro s b xn
  refine ⟨fun h => ?_, ?_⟩
  · have hv := validLength_eq_false_of_ne_two_pow h
    exact ⟨exec_brev_of_bad_length b hv, inPlaceCommand_of_bad_length (.brperm b xn) b _ hv,
      inPlaceCommand_of_bad_length (.nttf b xn) b _ hv, inPlaceCommand_of_bad_length (.ntti b xn) b _ hv⟩
  · rintro ⟨L, hL, hn⟩ i hi t ht
    have hv := validLength_of_eq_two_pow hL hn
    simp only [List.mem_cons, List.not_mem_nil, or_false] at hi
    obtain rfl | rfl | rfl | rfl := hi
    · cases (exec_brev_of_good_length b hv).symm.trans ht
      simp [SameStatus]
    · exact inPlaceCommand_sameStatus hv ht
    · exact inPlaceCommand_sameStatus hv ht
    · exact inPlaceCommand_sameStatus hv ht

end Sys2Proof.Machine
end

section
/-! BREV: the cells hold rev_n as field elements (41_bit_reversal.md R141). -/

namespace Sys2Proof.Machine
variable {s : State} {xn : RegNum} {L : Nat}

/-- The elements BREV writes for the length 2^L. -/
def brevElems (L : Nat) : List FieldElem := (List.range (2 ^ L)).map fun k => reduceNat (bitRev L k)

@[simp] theorem brevElems_length (L : Nat) : (brevElems L).length = 2 ^ L := by simp [brevElems]

/-- BREV with the valid length 2^L. -/
theorem exec_brev_eq (b : BufSel) (hL : L ≤ s.cfg.log2Nmax.val) (hn : s.readS64 xn = 2 ^ L) :
    exec (.brev b xn) s = .next (s.writeCells b (brevElems L)) := by
  rw [exec_brev_of_good_length b (validLength_of_eq_two_pow hL hn), toNat_of_eq_two_pow hn, revTable, Nat.log2_two_pow,
    List.map_map]
  rfl

theorem readCell_writeCells_brevElems (s : State) (b : BufSel) {k : Nat} (hk : k < 2 ^ L) :
    (s.writeCells b (brevElems L)).readCell b k = some (reduceNat (bitRev L k)) := by
  rw [State.readCell_writeCells, brevElems_length, if_pos ⟨rfl, hk⟩]
  simp [brevElems, hk]

/-- Every rev_n(k) is a field element exactly: rev_n(k) < n ≤ 2^23 < P. -/
theorem reduceNat_bitRev_val (c : Config) (hL : L ≤ c.log2Nmax.val) (k : Nat) :
    (reduceNat (bitRev L k)).val = bitRev L k := by
  refine reduceNat_of_lt ?_
  calc bitRev L k < 2 ^ L := bitRev_lt L k
    _ ≤ c.nmax := Nat.pow_le_pow_right two_pos hL
    _ ≤ 2 ^ 23 := c.nmax_le
    _ < P := by decide

/-- Settles O17: the length decides between the error and the table's write, and rev_n meets the recursion. -/
theorem bitReversalTable : Obligations.BitReversalTable := by
  intro s b xn
  refine ⟨fun _ => decode_eq_ok_iff_word, fun h => exec_brev_of_bad_length b (validLength_eq_false_of_ne_two_pow h),
    fun L hL hn => ?_⟩
  refine ⟨_, exec_brev_eq b hL hn, ?_, fun i h1 hi => ?_, onlyCells_writeCells s b (brevElems_length L)⟩
  · rw [readCell_writeCells_brevElems s b (Nat.two_pow_pos L), bitRev_zero]
    rfl
  · have hpos : 0 < L := Nat.pos_of_ne_zero fun h0 => by subst h0; omega
    refine ⟨_, _, readCell_writeCells_brevElems s b (by omega), readCell_writeCells_brevElems s b hi, ?_⟩
    rw [reduceNat_bitRev_val s.cfg hL, reduceNat_bitRev_val s.cfg hL]
    exact bitRev_eq_or hpos i

/-- Settles O18: the value in cell k is rev_n(k), which is known bit by bit. -/
theorem brevReversesBits : Obligations.BrevReversesBits := by
  intro s t b xn L hL hn ht k hk
  cases (exec_brev_eq b hL hn).symm.trans ht
  refine ⟨_, readCell_writeCells_brevElems s b hk, ?_, fun j hj => ?_⟩
  · rw [reduceNat_bitRev_val s.cfg hL]
    exact bitRev_lt L k
  · rw [reduceNat_bitRev_val s.cfg hL, bitRev_testBit, decide_eq_true hj, Bool.true_and]

end Sys2Proof.Machine
end

section
/-! BRPERM: the reorder step on the cells of a buffer, and twice the same (41_bit_reversal.md R142, R144). -/

namespace Sys2Proof.Machine
variable {s : State} {b : BufSel} {xn : RegNum} {L : Nat} {a : List FieldElem}

/-- BRPERM with the valid length 2^L whose cells are written. -/
theorem exec_brperm_eq (hL : L ≤ s.cfg.log2Nmax.val) (hn : s.readS64 xn = 2 ^ L)
    (ha : s.readCells b (2 ^ L) = some a) :
    exec (.brperm b xn) s = .next (s.writeCells b (reorder (2 ^ L) a)) := by
  rw [← toNat_of_eq_two_pow hn] at ha ⊢
  exact inPlaceCommand_good (validLength_of_eq_two_pow hL hn) ha

/-- Cells that are all written are read as a list. -/
theorem exists_readCells {n : Nat} (h : ∀ k < n, s.readCell b k ≠ none) : ∃ a, s.readCells b n = some a :=
  Option.isSome_iff_exists.1 (readCells_isSome.2 fun k hk => Option.isSome_iff_ne_none.2 (h k hk))

/-- Settles O20: the element at p after the reorder step is the one that stood at rev_n(p). -/
theorem permuteResult : Obligations.PermuteResult := by
  intro s b xn
  refine ⟨fun _ => decode_eq_ok_iff_word, fun L hL hn hw => ?_⟩
  obtain ⟨a, ha⟩ := exists_readCells hw
  obtain ⟨hlen, hcell⟩ := readCells_eq_some.1 ha
  have hrl : (reorder (2 ^ L) a).length = 2 ^ L := by rw [reorder_length, hlen]
  refine ⟨_, exec_brperm_eq hL hn ha, fun k hk => ?_, onlyCells_writeCells s b hrl⟩
  rw [State.readCell_writeCells, hrl, if_pos ⟨rfl, hk⟩, getElem?_reorder hlen hk, hcell _ (bitRev_lt L k)]

/-- Settles O21: the second command reads what the first has written, and writes back the elements of the start. -/
theorem permuteTwiceIsIdentity : Obligations.PermuteTwiceIsIdentity := by
  intro s b xn L hinv hL hn hw
  obtain ⟨a, ha⟩ := exists_readCells hw
  obtain ⟨hlen, -⟩ := readCells_eq_some.1 ha
  have hrl : (reorder (2 ^ L) a).length = 2 ^ L := by rw [reorder_length, hlen]
  refine ⟨_, exec_brperm_eq hL hn ha, ?_⟩
  have hread := s.readCells_writeCells_same b (reorder (2 ^ L) a)
  rw [hrl] at hread
  rw [exec_brperm_eq (by simpa using hL) (by simpa [State.readS64, State.readX] using hn) hread, reorder_reorder hlen,
    State.writeCells_writeCells_restore (hinv.wf b) ha (by rw [reorder_length])]

end Sys2Proof.Machine
end

section
/-! The discrete Fourier transform: the convolution theorem, and inversion over a field (42_ntt.md R156, R157). -/

namespace Sys2Proof.Machine
variable {n : Nat}

section Ring
variable {R : Type*} [CommSemiring R] {w : R}

/-- The transform of length n with root w: the sum of a[m] · w^(m·k) over m below n (42_ntt.md R156). -/
def dft (n : Nat) (w : R) (a : Nat → R) (k : Nat) : R := ∑ m ∈ Finset.range n, a m * w ^ (m * k)

theorem dft_congr {a c : Nat → R} (h : ∀ m < n, a m = c m) (k : Nat) : dft n w a k = dft n w c k :=
  Finset.sum_congr rfl fun m hm => by rw [h m (Finset.mem_range.1 hm)]

theorem dft_const_mul (r : R) (a : Nat → R) (k : Nat) : dft n w (fun m => r * a m) k = r * dft n w a k := by
  simp only [dft, Finset.mul_sum, mul_assoc]

/-- The cyclic convolution of length n. -/
def cyclicConv (n : Nat) (a c : Nat → R) (k : Nat) : R := ∑ i ∈ Finset.range n, a i * c ((n + k - i) % n)

/-- Turning the indices by i, the transform gains the factor w^(i·m). -/
theorem dft_rotate (hw : w ^ n = 1) (c : Nat → R) {i : Nat} (hi : i < n) (m : Nat) :
    dft n w (fun k => c ((n + k - i) % n)) m = w ^ (i * m) * dft n w c m := by
  rw [dft, dft, Finset.mul_sum]
  refine Finset.sum_nbij' (fun k => (n + k - i) % n) (fun j => (i + j) % n) ?_ ?_ ?_ ?_ ?_
  · exact fun k _ => Finset.mem_range.2 (Nat.mod_lt _ (by omega))
  · exact fun j _ => Finset.mem_range.2 (Nat.mod_lt _ (by omega))
  · intro k hk
    rw [Nat.add_mod_mod, show i + (n + k - i) = n + k by omega, Nat.add_mod_left, Nat.mod_eq_of_lt (by simpa using hk)]
  · intro j hj
    have hj : j < n := by simpa using hj
    by_cases h : i + j < n
    · rw [Nat.mod_eq_of_lt h, show n + (i + j) - i = n + j by omega, Nat.add_mod_left, Nat.mod_eq_of_lt hj]
    · rw [Nat.mod_eq_sub_mod (a := i + j) (by omega), Nat.mod_eq_of_lt (a := i + j - n) (by omega),
        show n + (i + j - n) - i = j by omega, Nat.mod_eq_of_lt hj]
  · intro k hk
    have hpow : w ^ k = w ^ i * w ^ ((n + k - i) % n) := by
      rw [← pow_eq_pow_mod _ hw, ← pow_add, show i + (n + k - i) = n + k by omega, pow_add, hw, one_mul]
    rw [pow_mul, hpow, mul_pow, ← pow_mul, ← pow_mul, mul_left_comm]

/-- The convolution theorem: the transform of a cyclic convolution is the product of the transforms. -/
theorem dft_cyclicConv (hw : w ^ n = 1) (a c : Nat → R) (m : Nat) :
    dft n w (cyclicConv n a c) m = dft n w a m * dft n w c m := by
  calc dft n w (cyclicConv n a c) m
      = ∑ i ∈ Finset.range n, a i * dft n w (fun k => c ((n + k - i) % n)) m := by
        simp only [dft, cyclicConv, Finset.sum_mul, Finset.mul_sum, mul_assoc]
        exact Finset.sum_comm
    _ = ∑ i ∈ Finset.range n, a i * w ^ (i * m) * dft n w c m :=
        Finset.sum_congr rfl fun i hi => by rw [dft_rotate hw c (Finset.mem_range.1 hi), mul_assoc]
    _ = dft n w a m * dft n w c m := (Finset.sum_mul _ _ _).symm

end Ring

section Field
variable {K : Type*} [Field K] {w : K}

/-- The powers of an n-th root of unity other than 1 cancel. -/
theorem sum_pow_eq_zero {x : K} (hx : x ^ n = 1) (h1 : x ≠ 1) : ∑ m ∈ Finset.range n, x ^ m = 0 := by
  rw [geom_sum_eq h1, hx, sub_self, zero_div]

/-- The transform with the inverse root undoes the transform, up to the factor n. -/
theorem dft_inv_dft (hw : IsPrimitiveRoot w n) (a : Nat → K) {k : Nat} (hk : k < n) :
    dft n w⁻¹ (dft n w a) k = n * a k := by
  have hw0 : w ≠ 0 := hw.ne_zero (by omega)
  have hkernel : ∀ i ∈ Finset.range n,
      ∑ m ∈ Finset.range n, (w ^ i * w⁻¹ ^ k) ^ m = if i = k then (n : K) else 0 := by
    intro i hi
    split
    · subst_vars
      simp [hw0]
    · rename_i hik
      refine sum_pow_eq_zero ?_ fun h => hik (hw.pow_inj (Finset.mem_range.1 hi) hk ?_)
      · rw [mul_pow, pow_right_comm, hw.pow_eq_one, pow_right_comm, inv_pow, hw.pow_eq_one]; simp
      · rwa [inv_pow, mul_inv_eq_one₀ (pow_ne_zero k hw0)] at h
  calc dft n w⁻¹ (dft n w a) k
      = ∑ m ∈ Finset.range n, ∑ i ∈ Finset.range n, a i * (w ^ i * w⁻¹ ^ k) ^ m := by
        simp only [dft, Finset.sum_mul]
        refine Finset.sum_congr rfl fun m _ => Finset.sum_congr rfl fun i _ => ?_
        rw [mul_pow, ← pow_mul, ← pow_mul, mul_comm m k, mul_assoc]
    _ = ∑ i ∈ Finset.range n, a i * if i = k then (n : K) else 0 := by
        rw [Finset.sum_comm]
        exact Finset.sum_congr rfl fun i hi => by rw [← Finset.mul_sum, hkernel i hi]
    _ = n * a k := by simp [hk, mul_comm]

end Field

end Sys2Proof.Machine
end

section
/-! The roots of unity of the transforms (42_ntt.md R153): ω_n has order n, for every n = 2^t with t ≤ 23. -/

namespace Sys2Proof.Machine

/-- Settles O28: each value is one run of the model's own fpow or finv. -/
theorem referenceRoots : Obligations.ReferenceRoots := by
  unfold Obligations.ReferenceRoots
  decide +kernel

theorem three_pow_half : (3 : ZMod P) ^ ((P - 1) / 2) = -1 := by
  obtain ⟨h, -⟩ := referenceRoots
  rw [← fieldValue_rootG, ← fieldValue_fpow rootG (by decide), fieldValue, h]
  rfl

/-- ω_n for n = 2^t, as P - 1 = 119 · 2^23. -/
theorem unityRoot_two_pow {t : Nat} (ht : t ≤ 23) : unityRoot (2 ^ t) = ((3 : ZMod P) ^ 119) ^ 2 ^ (23 - t) := by
  have hP : P - 1 = 119 * 2 ^ (23 - t) * 2 ^ t := by
    rw [mul_assoc, ← pow_add, Nat.sub_add_cancel ht]; rfl
  rw [unityRoot, hP, Nat.mul_div_cancel _ (Nat.two_pow_pos t), pow_mul]

theorem isPrimitiveRoot_three_pow : IsPrimitiveRoot ((3 : ZMod P) ^ 119) (2 ^ 23) := by
  have hhalf : ((3 : ZMod P) ^ 119) ^ 2 ^ 22 = -1 := by
    rw [← pow_mul]; exact three_pow_half
  have hsign : (-1 : ZMod P) ≠ 1 := by decide
  have hfull : ((3 : ZMod P) ^ 119) ^ 2 ^ 23 = 1 := by
    rw [pow_succ 2 22, pow_mul _ (2 ^ 22), hhalf, neg_one_sq]
  exact IsPrimitiveRoot.iff_orderOf.2 (orderOf_eq_prime_pow (hhalf ▸ hsign) hfull)

/-- ω_n is a principal n-th root of unity. -/
theorem isPrimitiveRoot_unityRoot {t : Nat} (ht : t ≤ 23) : IsPrimitiveRoot (unityRoot (2 ^ t)) (2 ^ t) := by
  rw [unityRoot_two_pow ht]
  exact isPrimitiveRoot_three_pow.pow (by decide) (by rw [← pow_add, Nat.sub_add_cancel ht])

theorem unityRoot_sq {t : Nat} (ht : t < 23) : unityRoot (2 ^ (t + 1)) ^ 2 = unityRoot (2 ^ t) := by
  rw [unityRoot_two_pow ht, unityRoot_two_pow ht.le, ← pow_mul _ _ 2, ← pow_succ,
    show 23 - (t + 1) + 1 = 23 - t by omega]

/-- The root of the transform of length 2^t: ω_n, or its inverse for the inverse transform. -/
def directedRoot (inv : Bool) (t : Nat) : ZMod P := if inv then (unityRoot (2 ^ t))⁻¹ else unityRoot (2 ^ t)

theorem isPrimitiveRoot_directedRoot (inv : Bool) {t : Nat} (ht : t ≤ 23) :
    IsPrimitiveRoot (directedRoot inv t) (2 ^ t) := by
  have : Fact P.Prime := ⟨P_prime⟩
  cases inv with
  | false => exact isPrimitiveRoot_unityRoot ht
  | true => exact (isPrimitiveRoot_unityRoot ht).inv

theorem directedRoot_sq (inv : Bool) {t : Nat} (ht : t < 23) : directedRoot inv (t + 1) ^ 2 = directedRoot inv t := by
  have : Fact P.Prime := ⟨P_prime⟩
  cases inv with
  | false => exact unityRoot_sq ht
  | true => exact (inv_pow _ 2).trans (congrArg _ (unityRoot_sq ht))

theorem directedRoot_not (inv : Bool) (t : Nat) : directedRoot (!inv) t = (directedRoot inv t)⁻¹ := by
  have : Fact P.Prime := ⟨P_prime⟩
  cases inv with
  | false => rfl
  | true => exact (inv_inv _).symm

/-- The root of a stage, taken to half its order, is -1: the sign change of the butterflies (42_ntt.md R151). -/
theorem directedRoot_pow_half (inv : Bool) {t : Nat} (ht : t < 23) : directedRoot inv (t + 1) ^ 2 ^ t = -1 := by
  have : Fact P.Prime := ⟨P_prime⟩
  exact ((isPrimitiveRoot_directedRoot inv ht).pow (Nat.two_pow_pos _) (pow_succ 2 t)).eq_neg_one_of_two_right

theorem fieldValue_finv {a : FieldElem} (h : a ≠ 0) : fieldValue (finv a) = (fieldValue a)⁻¹ := by
  have : Fact P.Prime := ⟨P_prime⟩
  exact eq_inv_of_mul_eq_one_left (by rw [← fieldValue_fmul, fmul_finv_self h, fieldValue_one])

theorem ne_zero_of_fieldValue {a : FieldElem} (h : fieldValue a ≠ 0) : a ≠ 0 := fun h0 => h (h0 ▸ fieldValue_zero)

/-- w1 of the stage of width 2^t is the root of length 2^(t+1) (42_ntt.md R152, R153). -/
theorem fieldValue_stageRoot (inv : Bool) {t : Nat} (ht : t < 23) :
    fieldValue (stageRoot inv (2 ^ t)) = directedRoot inv (t + 1) := by
  have hle : 2 * 2 ^ t ≤ 2 ^ 23 := by
    rw [← pow_succ']; exact Nat.pow_le_pow_right two_pos ht
  have hexp : 1 ≤ (P - 1) / (2 * 2 ^ t) := (Nat.one_le_div_iff (by positivity)).2 (hle.trans (by decide))
  have hfwd : fieldValue (fpow rootG ((P - 1) / (2 * 2 ^ t))) = unityRoot (2 ^ (t + 1)) := by
    rw [fieldValue_fpow _ hexp, fieldValue_rootG, unityRoot, pow_succ']
  cases inv with
  | false => exact hfwd
  | true =>
    have : Fact P.Prime := ⟨P_prime⟩
    have hne := (isPrimitiveRoot_unityRoot ht).ne_zero (NeZero.ne _)
    exact (fieldValue_finv (ne_zero_of_fieldValue (hfwd ▸ hne))).trans (congrArg _ hfwd)

theorem two_pow_ne_zero (L : Nat) : ((2 ^ L : Nat) : ZMod P) ≠ 0 := by
  have htwo : ((2 : Nat) : ZMod P) ≠ 0 := by decide
  have : Fact P.Prime := ⟨P_prime⟩
  rw [Nat.cast_pow]
  exact pow_ne_zero L htwo

/-- The last factor of the inverse transform: finv(n) is the inverse of n (42_ntt.md R152). -/
theorem fieldValue_finv_two_pow (L : Nat) : fieldValue (finv (reduceNat (2 ^ L))) = ((2 ^ L : Nat) : ZMod P)⁻¹ := by
  rw [fieldValue_finv (ne_zero_of_fieldValue (by rw [fieldValue_reduceNat]; exact two_pow_ne_zero L)),
    fieldValue_reduceNat]

end Sys2Proof.Machine
end

section
/-! The closed form of the transforms (42_ntt.md R156): that each direction undoes the other, and the cyclic
convolution (R157; 70_reset_and_hazards.md R234). -/

namespace Sys2Proof.Machine
variable {L : Nat}

/-- The factor of the transform of length 2^L: 1, or n^(-1) for the inverse transform. -/
def directedScale (inv : Bool) (L : Nat) : ZMod P := if inv then ((2 ^ L : Nat) : ZMod P)⁻¹ else 1

/-- What the forward or the inverse transform of length 2^L gives for cell k (42_ntt.md R156). -/
def closedNtt (inv : Bool) (L : Nat) (a : Nat → ZMod P) (k : Nat) : ZMod P :=
  directedScale inv L * dft (2 ^ L) (directedRoot inv L) a k

theorem closedNtt_congr (inv : Bool) {a c : Nat → ZMod P} (h : ∀ m < 2 ^ L, a m = c m) (k : Nat) :
    closedNtt inv L a k = closedNtt inv L c k := congrArg _ (dft_congr h k)

theorem closedNtt_false (L : Nat) (a : Nat → ZMod P) (k : Nat) :
    closedNtt false L a k = dft (2 ^ L) (unityRoot (2 ^ L)) a k := one_mul _

theorem directedScale_not_mul (inv : Bool) (L : Nat) :
    directedScale (!inv) L * directedScale inv L * ((2 ^ L : Nat) : ZMod P) = 1 := by
  have : Fact P.Prime := ⟨P_prime⟩
  have h := inv_mul_cancel₀ (two_pow_ne_zero L)
  cases inv <;> simpa [directedScale] using h

/-- Each direction of the transform undoes the other (42_ntt.md R157). -/
theorem closedNtt_not_closedNtt (inv : Bool) (hL : L ≤ 23) (a : Nat → ZMod P) {k : Nat} (hk : k < 2 ^ L) :
    closedNtt (!inv) L (closedNtt inv L a) k = a k := by
  have : Fact P.Prime := ⟨P_prime⟩
  calc closedNtt (!inv) L (closedNtt inv L a) k
      = directedScale (!inv) L * (directedScale inv L *
          dft (2 ^ L) (directedRoot inv L)⁻¹ (dft (2 ^ L) (directedRoot inv L) a) k) := by
        rw [← dft_const_mul, ← directedRoot_not]; rfl
    _ = directedScale (!inv) L * directedScale inv L * ((2 ^ L : Nat) : ZMod P) * a k := by
        rw [dft_inv_dft (isPrimitiveRoot_directedRoot inv hL) a hk, ← mul_assoc, ← mul_assoc]
    _ = a k := by rw [directedScale_not_mul, one_mul]

/-- The spectrum of a cyclic convolution is the product of the spectra. -/
theorem closedNtt_cyclicConv (hL : L ≤ 23) (a c : Nat → ZMod P) (m : Nat) :
    closedNtt false L (cyclicConv (2 ^ L) a c) m = closedNtt false L a m * closedNtt false L c m := by
  simp only [closedNtt_false]
  exact dft_cyclicConv (isPrimitiveRoot_unityRoot hL).pow_eq_one a c m

end Sys2Proof.Machine
end

section
/-! The stages of the transform (42_ntt.md R152): after t of them each block of 2^t cells holds the transform of its
own elements, taken in bit-reversed order. -/

namespace Sys2Proof.Machine

/-- The element at an index, in the ring of integers mod P. -/
def valueAt (a : List FieldElem) (p : Nat) : ZMod P := fieldValue (elemAt a p)

/-- The top bit of an index is the bottom bit of its reversal. -/
theorem bitRev_two_pow_mul_add {t e c : Nat} (he : e < 2 ^ t) (hc : c < 2) :
    bitRev (t + 1) (2 ^ t * c + e) = 2 * bitRev t e + c := by
  apply Nat.eq_of_testBit_eq
  intro u
  rw [bitRev_testBit, Nat.testBit_two_pow_mul_add _ he]
  cases u with
  | zero => simp [Nat.testBit_zero]
  | succ u =>
    rw [Nat.testBit_succ, show (2 * bitRev t e + c) / 2 = bitRev t e by omega, bitRev_testBit]
    by_cases hu : u < t
    · simp [hu, show t - (u + 1) < t by omega, Nat.sub_sub, Nat.add_comm 1 u]
    · simp [hu]

/-- The transform of the block of 2^t elements that starts at index s, its elements taken in bit-reversed order. -/
def blockDft (w : ZMod P) (t : Nat) (r : Nat → ZMod P) (s d : Nat) : ZMod P :=
  ∑ e ∈ Finset.range (2 ^ t), r (s + e) * w ^ (bitRev t e * d)

/-- A block's transform from those of its two halves: the even and the odd terms of the sum. -/
theorem blockDft_succ (w : ZMod P) (t : Nat) (r : Nat → ZMod P) (s d : Nat) :
    blockDft w (t + 1) r s d = blockDft (w ^ 2) t r s d + w ^ d * blockDft (w ^ 2) t r (s + 2 ^ t) d := by
  rw [blockDft, pow_succ, mul_two, Finset.sum_range_add, blockDft, blockDft, Finset.mul_sum]
  congr 1
  · refine Finset.sum_congr rfl fun e he => ?_
    have hrev := bitRev_two_pow_mul_add (Finset.mem_range.1 he) (c := 0) (by decide)
    rw [mul_zero, zero_add, add_zero] at hrev
    rw [hrev, ← pow_mul, mul_assoc]
  · refine Finset.sum_congr rfl fun e he => ?_
    have hrev := bitRev_two_pow_mul_add (Finset.mem_range.1 he) (c := 1) (by decide)
    rw [mul_one] at hrev
    rw [hrev, ← pow_mul, add_one_mul, pow_add, mul_assoc 2, add_assoc]
    ring

/-- A block's transform repeats after 2^t indices. -/
theorem blockDft_add_two_pow {w : ZMod P} {t : Nat} (hw : w ^ 2 ^ t = 1) (r : Nat → ZMod P) (s d : Nat) :
    blockDft w t r s (2 ^ t + d) = blockDft w t r s d :=
  Finset.sum_congr rfl fun e _ => by rw [mul_add, pow_add, mul_comm _ (2 ^ t), pow_mul w (2 ^ t), hw, one_pow, one_mul]

/-- Every block of 2^t of the n elements holds the transform of the block of `r` at its place. -/
def HoldsBlockDfts (w : ZMod P) (t n : Nat) (r : Nat → ZMod P) (a : List FieldElem) : Prop :=
  ∀ s d, 2 ^ t ∣ s → s + 2 ^ t ≤ n → d < 2 ^ t → valueAt a (s + d) = blockDft w t r s d

/-- One stage joins the transforms of neighbouring blocks. -/
theorem stagePass_holdsBlockDfts {w1 : FieldElem} {t n : Nat} {r : Nat → ZMod P} {a : List FieldElem}
    (hw : fieldValue w1 ^ 2 ^ t = -1) (hn : 2 ^ (t + 1) ∣ n) (ha : a.length = n)
    (h : HoldsBlockDfts (fieldValue w1 ^ 2) t n r a) :
    HoldsBlockDfts (fieldValue w1) (t + 1) n r (stagePass n (2 ^ t) w1 a) := by
  intro s d hs hsn hd
  have hj := Nat.two_pow_pos t
  rw [pow_succ'] at hn hs hsn hd
  have hs0 : 2 ^ t ∣ s := (Dvd.intro_left 2 rfl).trans hs
  have hs1 : 2 ^ t ∣ s + 2 ^ t := hs0.add dvd_rfl
  have hmod : (s + d) % (2 * 2 ^ t) = d := by
    rw [Nat.add_mod, Nat.mod_eq_zero_of_dvd hs, zero_add, Nat.mod_mod, Nat.mod_eq_of_lt hd]
  have hval {s d : Nat} (hs : 2 ^ t ∣ s) (hsn : s + 2 ^ t ≤ n) (hd : d < 2 ^ t) :
      fieldValue (elemAt a (s + d)) = blockDft (fieldValue w1 ^ 2) t r s d := h s d hs hsn hd
  rw [valueAt, elemAt_stagePass w1 hj hn ha (by omega), hmod, blockDft_succ]
  by_cases hlow : d < 2 ^ t
  · rw [if_pos hlow, fieldValue_fadd, fieldValue_fmul, fieldValue_twiddle, add_right_comm,
      hval hs0 (by omega) hlow, hval hs1 (by omega) hlow]
  · obtain ⟨c, rfl⟩ := Nat.exists_eq_add_of_le (Nat.le_of_not_lt hlow)
    have hc : c < 2 ^ t := by omega
    have hper : (fieldValue w1 ^ 2) ^ 2 ^ t = 1 := by rw [pow_right_comm, hw, neg_one_sq]
    rw [if_neg hlow, fieldValue_fsub, fieldValue_fmul, fieldValue_twiddle, Nat.add_sub_cancel_left,
      show s + (2 ^ t + c) - 2 ^ t = s + c by omega, ← add_assoc, hval hs0 (by omega) hc, hval hs1 (by omega) hc,
      blockDft_add_two_pow hper, blockDft_add_two_pow hper, pow_add, hw]
    ring

/-- The elements after the first m stages. -/
def stagesPrefix (inv : Bool) (n : Nat) (a : List FieldElem) (m : Nat) : List FieldElem :=
  (List.range m).foldl (fun a t => stagePass n (2 ^ t) (stageRoot inv (2 ^ t)) a) a

theorem stagesPrefix_succ (inv : Bool) (n : Nat) (a : List FieldElem) (m : Nat) :
    stagesPrefix inv n a (m + 1) = stagePass n (2 ^ m) (stageRoot inv (2 ^ m)) (stagesPrefix inv n a m) := by
  simp [stagesPrefix, List.range_succ]

@[simp] theorem stagesPrefix_length (inv : Bool) (n : Nat) (a : List FieldElem) (m : Nat) :
    (stagesPrefix inv n a m).length = a.length := foldl_length_eq _ (fun _ _ => stagePass_length _ _ _ _) _ a

theorem allStages_two_pow (inv : Bool) (L : Nat) (a : List FieldElem) :
    allStages inv (2 ^ L) a = stagesPrefix inv (2 ^ L) a L := by rw [allStages, Nat.log2_two_pow, stagesPrefix]

/-- After m stages every block of 2^m holds its transform. -/
theorem stagesPrefix_holdsBlockDfts (inv : Bool) {L : Nat} (hL : L ≤ 23) {a : List FieldElem} (ha : a.length = 2 ^ L)
    {m : Nat} (hm : m ≤ L) :
    HoldsBlockDfts (directedRoot inv m) m (2 ^ L) (valueAt a) (stagesPrefix inv (2 ^ L) a m) := by
  induction m with
  | zero =>
    intro s d _ _ hd
    obtain rfl : d = 0 := by omega
    simp [blockDft, stagesPrefix]
  | succ m ih =>
    have hm' : m < 23 := by omega
    have hroot := fieldValue_stageRoot inv hm'
    rw [stagesPrefix_succ, ← hroot]
    refine stagePass_holdsBlockDfts ?_ (pow_dvd_pow 2 hm) (by rw [stagesPrefix_length, ha]) ?_
    · rw [hroot, directedRoot_pow_half inv hm']
    · rw [hroot, directedRoot_sq inv hm']
      exact ih (by omega)

/-- The stages compute the transform of elements that stand in bit-reversed order. -/
theorem valueAt_allStages_reorder (inv : Bool) {L : Nat} (hL : L ≤ 23) {a : List FieldElem} (ha : a.length = 2 ^ L)
    {k : Nat} (hk : k < 2 ^ L) :
    valueAt (allStages inv (2 ^ L) (reorder (2 ^ L) a)) k = dft (2 ^ L) (directedRoot inv L) (valueAt a) k := by
  have h := stagesPrefix_holdsBlockDfts inv hL (a := reorder (2 ^ L) a) (by rw [reorder_length, ha]) le_rfl
    0 k (dvd_zero _) (by omega) hk
  rw [Nat.zero_add] at h
  rw [allStages_two_pow, h, blockDft, dft]
  have hmem : ∀ e ∈ Finset.range (2 ^ L), bitRev L e ∈ Finset.range (2 ^ L) :=
    fun e _ => Finset.mem_range.2 (bitRev_lt L e)
  have hrev : ∀ e ∈ Finset.range (2 ^ L), bitRev L (bitRev L e) = e :=
    fun e he => bitRev_bitRev (Finset.mem_range.1 he)
  refine Finset.sum_nbij' (bitRev L) (bitRev L) hmem hmem hrev hrev fun e he => ?_
  rw [Nat.zero_add, valueAt, elemAt_reorder ha (Finset.mem_range.1 he), valueAt]

/-- The closed form of ntt_core (42_ntt.md R156). -/
theorem valueAt_nttCore (inv : Bool) {L : Nat} (hL : L ≤ 23) {a : List FieldElem} (ha : a.length = 2 ^ L)
    {k : Nat} (hk : k < 2 ^ L) :
    valueAt (nttCore inv (2 ^ L) a) k = closedNtt inv L (valueAt a) k := by
  rw [closedNtt, ← valueAt_allStages_reorder inv hL ha hk]
  cases inv with
  | false => exact (one_mul _).symm
  | true =>
    have hlen : k < (allStages true (2 ^ L) (reorder (2 ^ L) a)).length := by simpa [ha] using hk
    rw [nttCore, if_pos rfl, directedScale, if_pos rfl, mul_comm, ← fieldValue_finv_two_pow, valueAt, valueAt,
      ← fieldValue_fmul, elemAt_of_lt (by simpa using hlen), List.getElem_map, elemAt_of_lt hlen]

end Sys2Proof.Machine
end

section
/-! The transform on lists: inversion and cyclic convolution (42_ntt.md R156, R157; 70_reset_and_hazards.md R234). -/

namespace Sys2Proof.Machine

/-- Each direction of the procedure undoes the other (42_ntt.md R157). -/
theorem nttCore_not_nttCore (inv : Bool) {L : Nat} (hL : L ≤ 23) {a : List FieldElem} (ha : a.length = 2 ^ L) :
    nttCore (!inv) (2 ^ L) (nttCore inv (2 ^ L) a) = a := by
  refine List.ext_getElem (by simp) fun k hk hka => fieldValue_injective ?_
  rw [← elemAt_of_lt hk, ← elemAt_of_lt hka]
  have hk : k < 2 ^ L := ha ▸ hka
  calc valueAt (nttCore (!inv) (2 ^ L) (nttCore inv (2 ^ L) a)) k
      = closedNtt (!inv) L (valueAt (nttCore inv (2 ^ L) a)) k := valueAt_nttCore _ hL (by rw [nttCore_length, ha]) hk
    _ = closedNtt (!inv) L (closedNtt inv L (valueAt a)) k :=
        closedNtt_congr _ (fun m hm => valueAt_nttCore inv hL ha hm) k
    _ = valueAt a k := closedNtt_not_closedNtt inv hL _ hk

theorem valueAt_zipWith_fmul {a c : List FieldElem} {k : Nat} (ha : k < a.length) (hc : k < c.length) :
    valueAt (List.zipWith fmul a c) k = valueAt a k * valueAt c k := by
  rw [valueAt, elemAt_of_lt (by simp [ha, hc]), List.getElem_zipWith, fieldValue_fmul, valueAt, valueAt,
    elemAt_of_lt ha, elemAt_of_lt hc]

/-- Settles O27: the product of the spectra is the spectrum of the convolution, which the inverse transform restores. -/
theorem pointwiseProductIsCyclicConvolution : Obligations.PointwiseProductIsCyclicConvolution := by
  intro L a c hL ha hc k hk
  have hprod : ∀ m < 2 ^ L,
      valueAt (List.zipWith fmul (nttCore false (2 ^ L) a) (nttCore false (2 ^ L) c)) m =
        closedNtt false L (cyclicConv (2 ^ L) (valueAt a) (valueAt c)) m := by
    intro m hm
    rw [valueAt_zipWith_fmul (by simpa [ha] using hm) (by simpa [hc] using hm), valueAt_nttCore false hL ha hm,
      valueAt_nttCore false hL hc hm, closedNtt_cyclicConv hL]
  calc valueAt (nttCore true (2 ^ L) (List.zipWith fmul (nttCore false (2 ^ L) a) (nttCore false (2 ^ L) c))) k
      = closedNtt true L (closedNtt false L (cyclicConv (2 ^ L) (valueAt a) (valueAt c))) k := by
        rw [valueAt_nttCore true hL (by simp [ha, hc]) hk, closedNtt_congr true hprod]
    _ = cyclicConv (2 ^ L) (valueAt a) (valueAt c) k := closedNtt_not_closedNtt false hL _ hk

end Sys2Proof.Machine
end

section
/-! NTTF and NTTI: results, frame and round trip (42_ntt.md R150, R154 to R157). -/

namespace Sys2Proof.Machine
variable {i : Instr} {s s' t : State} {b : BufSel} {xn : RegNum} {L : Nat} {a : List FieldElem}
variable {g : Nat → List FieldElem → List FieldElem}

/-- An in-place command with the valid length 2^L whose cells are written. -/
theorem inPlaceCommand_eq (hL : L ≤ s.cfg.log2Nmax.val) (hn : s.readS64 xn = 2 ^ L)
    (ha : s.readCells b (2 ^ L) = some a) :
    inPlaceCommand i b xn g s = .next (s.writeCells b (g (2 ^ L) a)) := by
  rw [← toNat_of_eq_two_pow hn] at ha ⊢
  exact inPlaceCommand_good (validLength_of_eq_two_pow hL hn) ha

/-- An in-place command that completes with the valid length 2^L has read its cells and written them. -/
theorem inPlaceCommand_next (hL : L ≤ s.cfg.log2Nmax.val) (hn : s.readS64 xn = 2 ^ L)
    (h : inPlaceCommand i b xn g s = .next t) :
    ∃ a, s.readCells b (2 ^ L) = some a ∧ t = s.writeCells b (g (2 ^ L) a) := by
  cases ha : s.readCells b (2 ^ L) with
  | none =>
    rw [← toNat_of_eq_two_pow hn] at ha
    rw [inPlaceCommand_uninit (validLength_of_eq_two_pow hL hn) ha] at h
    cases h
  | some a =>
    cases (inPlaceCommand_eq hL hn ha).symm.trans h
    exact ⟨a, rfl, rfl⟩

theorem readCells_of_same_cells {n : Nat} (h : ∀ k < n, s'.readCell b k = s.readCell b k)
    (ha : s.readCells b n = some a) : s'.readCells b n = some a := by
  obtain ⟨hlen, hcell⟩ := readCells_eq_some.1 ha
  exact readCells_eq_some.2 ⟨hlen, fun k hk => (h k hk).trans (hcell k hk)⟩

/-- Settles O23: the cells below n are all that the command reads and all that it writes. -/
theorem transformsStayInTheirCells : Obligations.TransformsStayInTheirCells := by
  intro s s' t t' b xn i hi ht ht'
  obtain ⟨inv, hexec⟩ : ∃ inv, ∀ u, exec i u = inPlaceCommand i b xn (nttCore inv) u := by
    simp only [List.mem_cons, List.not_mem_nil, or_false] at hi
    obtain rfl | rfl := hi
    · exact ⟨false, fun _ => rfl⟩
    · exact ⟨true, fun _ => rfl⟩
  rw [hexec] at ht ht'
  constructor
  · intro L hL hL' hn hn' hsame
    obtain ⟨a, ha, rfl⟩ := inPlaceCommand_next hL hn ht
    cases (inPlaceCommand_eq hL' hn' (readCells_of_same_cells hsame ha)).symm.trans ht'
    have hlen : (nttCore inv (2 ^ L) a).length = 2 ^ L := by rw [nttCore_length, Memory.readRange_length ha]
    refine ⟨fun k hk => ?_, onlyCells_writeCells s b hlen⟩
    rw [State.readCell_writeCells, State.readCell_writeCells, hlen, if_pos ⟨rfl, hk⟩, if_pos ⟨rfl, hk⟩]
  · intro h
    cases (inPlaceCommand_of_bad_length i b _ (validLength_eq_false_of_ne_two_pow h)).symm.trans ht
    obtain ⟨-, -, hcells, -⟩ := onlyStatus_latched 2 (fieldsOf i).word s
    exact ⟨hcells, latched_err_ne_zero (by decide) _ s⟩

/-- Cells that hold known elements are read as a list of these elements. -/
theorem HoldsElems.readCells_eq {n : Nat} {a : Nat → FieldElem} (h : HoldsElems s b n a) :
    ∃ u, s.readCells b n = some u ∧ u.length = n ∧ ∀ m < n, elemAt u m = a m := by
  obtain ⟨u, hu⟩ := exists_readCells fun k hk => (h k hk).symm ▸ Option.some_ne_none (a k)
  obtain ⟨hlen, hcell⟩ := readCells_eq_some.1 hu
  refine ⟨u, hu, hlen, fun m hm => Option.some.inj ?_⟩
  rw [← getElem?_eq_some_elemAt (hlen ▸ hm), ← hcell m hm, h m hm]

/-- NMAX is at most 2^23, so every valid length divides P - 1 (00_scope.md R11). -/
theorem le_of_le_log2Nmax {c : Config} (h : L ≤ c.log2Nmax.val) : L ≤ 23 := by omega

/-- What a transform command with the valid length 2^L leaves: the closed form in each cell below n, and all else
unchanged. -/
theorem inPlaceCommand_nttCore (inv : Bool) {a : Nat → FieldElem} (hL : L ≤ s.cfg.log2Nmax.val)
    (hn : s.readS64 xn = 2 ^ L) (ha : HoldsElems s b (2 ^ L) a) :
    ∃ t, inPlaceCommand i b xn (nttCore inv) s = .next t ∧
      (∀ k < 2 ^ L, ∃ v, t.readCell b k = some v ∧
        fieldValue v = closedNtt inv L (fun m => fieldValue (a m)) k) ∧
      OnlyCells (fun b' k => b' = b ∧ k < 2 ^ L) s t := by
  obtain ⟨u, hu, hlen, helem⟩ := ha.readCells_eq
  have hnlen : (nttCore inv (2 ^ L) u).length = 2 ^ L := by rw [nttCore_length, hlen]
  refine ⟨_, inPlaceCommand_eq hL hn hu, fun k hk => ⟨elemAt (nttCore inv (2 ^ L) u) k, ?_, ?_⟩,
    onlyCells_writeCells s b hnlen⟩
  · rw [State.readCell_writeCells, hnlen, if_pos ⟨rfl, hk⟩, getElem?_eq_some_elemAt (by rwa [hnlen])]
  · exact (valueAt_nttCore inv (le_of_le_log2Nmax hL) hlen hk).trans
      (closedNtt_congr inv (fun m hm => congrArg fieldValue (helem m hm)) k)

/-- Settles O24: the forward closed form has the factor 1. -/
theorem forwardTransformValues : Obligations.ForwardTransformValues := by
  intro s b xn L a hL hn ha
  obtain ⟨t, ht, hvalues, honly⟩ := inPlaceCommand_nttCore (i := .nttf b xn) false hL hn ha
  refine ⟨fun _ => decode_eq_ok_iff_word, t, ht, fun k hk => ?_, honly⟩
  obtain ⟨v, hv, hsum⟩ := hvalues k hk
  exact ⟨v, hv, hsum.trans (closedNtt_false L _ k)⟩

/-- Settles O25: the inverse closed form has the inverse root and the factor n^(-1). -/
theorem inverseTransformValues : Obligations.InverseTransformValues := by
  intro s b xn L a hL hn ha
  exact ⟨fun _ => decode_eq_ok_iff_word, inPlaceCommand_nttCore (i := .ntti b xn) true hL hn ha⟩

/-- A transform command and after it the one of the other direction leave the whole state as it was. -/
theorem inPlaceCommand_nttCore_not (inv : Bool) (j : Instr) (hinv : s.Inv) (hL : L ≤ s.cfg.log2Nmax.val)
    (hn : s.readS64 xn = 2 ^ L) (hw : ∀ k < 2 ^ L, s.readCell b k ≠ none) :
    ∃ t, inPlaceCommand i b xn (nttCore inv) s = .next t ∧ inPlaceCommand j b xn (nttCore (!inv)) t = .next s := by
  obtain ⟨a, ha⟩ := exists_readCells hw
  have hlen : a.length = 2 ^ L := Memory.readRange_length ha
  have hread := s.readCells_writeCells_same b (nttCore inv (2 ^ L) a)
  rw [nttCore_length, hlen] at hread
  refine ⟨_, inPlaceCommand_eq hL hn ha, ?_⟩
  rw [inPlaceCommand_eq (by simpa using hL) (by simpa [State.readS64, State.readX] using hn) hread,
    nttCore_not_nttCore inv (le_of_le_log2Nmax hL) hlen,
    State.writeCells_writeCells_restore (hinv.wf b) ha (by rw [nttCore_length])]

/-- Settles O26: the two orders are the two directions of the first command. -/
theorem transformRoundTrip : Obligations.TransformRoundTrip := fun _ b xn _ hinv hL hn hw =>
  ⟨inPlaceCommand_nttCore_not (i := .nttf b xn) false (.ntti b xn) hinv hL hn hw,
    inPlaceCommand_nttCore_not (i := .ntti b xn) true (.nttf b xn) hinv hL hn hw⟩

end Sys2Proof.Machine
end

section
/-! The length of SQEXT, its check, and what the command answers on each outcome (43_square_extend.md R170, R171). -/

namespace Sys2Proof.Machine
variable {s : State} {t f : BufSel} {xl : RegNum}

/-- A result of 2·fl - 1 coefficients that fits NMAX, which is a power of two, has a length that fits as well. -/
theorem sqLength_le_nmax {c : Config} {fl : Int} (h : 2 * fl - 1 ≤ (c.nmax : Int)) : sqLength fl ≤ c.nmax :=
  nextPow2_le h

/-- A legal length of SQEXT is a power of two that divides P - 1. -/
theorem sqLength_eq_two_pow {c : Config} {fl : Int} (h : sqLength fl ≤ c.nmax) : ∃ L ≤ 23, sqLength fl = 2 ^ L := by
  obtain ⟨L, hL⟩ := nextPow2_eq_two_pow (2 * fl - 1)
  refine ⟨L, (Nat.pow_le_pow_iff_right (a := 2) (by decide)).1 ?_, hL⟩
  rw [← hL]
  exact h.trans c.nmax_le

/-- The length leaves room for every coefficient of the square. -/
theorem two_mul_toNat_le_sqLength (fl : Int) : 2 * fl.toNat ≤ sqLength fl + 1 := by
  have h : 2 * fl - 1 ≤ (sqLength fl : Int) := le_nextPow2 _
  omega

theorem exec_sqext_of_bad_length (h : s.readS64 xl < 0 ∨ s.nmax < sqLength (s.readS64 xl)) :
    exec (.sqext t f xl) s = .next (latched 2 (fieldsOf (.sqext t f xl)).word s) := by
  have hv : ¬ validSquareLength s.nmax (s.readS64 xl) = true := by rw [validSquareLength_iff]; omega
  exact (if_neg hv).trans (commandError_eq_word _ _ s)

/-- SQEXT with a legal length whose source cells are written. -/
theorem exec_sqext_of_good_length {a : List FieldElem} (h0 : 0 ≤ s.readS64 xl)
    (hn : sqLength (s.readS64 xl) ≤ s.nmax) (ha : s.readCells f (s.readS64 xl).toNat = some a) :
    exec (.sqext t f xl) s =
      .next ((s.writeCells f (squareSpectrum (sqLength (s.readS64 xl)) a)).writeCells t
        (squareResult s.nmax (sqLength (s.readS64 xl)) a)) := by
  rw [exec, execSqext, if_pos (validSquareLength_iff.2 ⟨h0, hn⟩), ha]

/-- Settles O29: the length is nextpow2(2·fl - 1), and a bad one fails the command's check. -/
theorem squareLengthRule : Obligations.SquareLengthRule :=
  ⟨fun _ => ⟨nextPow2_eq_two_pow _, le_nextPow2 _, fun _ hk => nextPow2_le (by exact_mod_cast hk)⟩, by decide,
    fun _ _ _ _ => exec_sqext_of_bad_length⟩

end Sys2Proof.Machine
end

section
/-! The convolution that does not wrap around: what a cyclic convolution and a transform are on elements that are 0 from
an index upward (43_square_extend.md R170, R172). -/

namespace Sys2Proof.Machine
variable {R : Type*} [CommSemiring R] {l n : Nat} {a c : Nat → R}

/-- Coefficient k of the product of two polynomials with l coefficients each (43_square_extend.md R172). -/
def linearConv (l : Nat) (a c : Nat → R) (k : Nat) : R :=
  ∑ i ∈ (Finset.range l).filter fun i => i ≤ k ∧ k - i < l, a i * c (k - i)

theorem linearConv_congr {a' c' : Nat → R} (ha : ∀ m < l, a m = a' m) (hc : ∀ m < l, c m = c' m) (k : Nat) :
    linearConv l a c k = linearConv l a' c' k := by
  refine Finset.sum_congr rfl fun i hi => ?_
  obtain ⟨hil, -, hkl⟩ := by simpa using hi
  rw [ha i hil, hc _ hkl]

/-- The product has no coefficient from 2l - 1 upward. -/
theorem linearConv_eq_zero {k : Nat} (hk : 2 * l ≤ k + 1) : linearConv l a c k = 0 := by
  refine Finset.sum_eq_zero fun i hi => ?_
  obtain ⟨hil, -, hkl⟩ := by simpa using hi
  omega

/-- With at least 2l - 1 indices the cyclic convolution does not wrap around: an index that would wrap meets a zero. -/
theorem cyclicConv_eq_linearConv (ha : ∀ m, l ≤ m → a m = 0) (hc : ∀ m, l ≤ m → c m = 0) (hn : 2 * l ≤ n + 1)
    {k : Nat} (hk : k < n) : cyclicConv n a c k = linearConv l a c k := by
  have hmod {i : Nat} (hi : i ≤ k) : (n + k - i) % n = k - i := by
    rw [Nat.add_sub_assoc hi, Nat.add_mod_left, Nat.mod_eq_of_lt (by omega)]
  calc cyclicConv n a c k
      = ∑ i ∈ (Finset.range l).filter fun i => i ≤ k ∧ k - i < l, a i * c ((n + k - i) % n) := by
        refine (Finset.sum_subset (fun i hi => ?_) fun i hi hout => ?_).symm
        · obtain ⟨hil, -, -⟩ := by simpa using hi
          exact Finset.mem_range.2 (by omega)
        · have hin : i < n := Finset.mem_range.1 hi
          have hout : i < l → i ≤ k → l ≤ k - i := by simpa using hout
          by_cases hil : i < l
          · by_cases hik : i ≤ k
            · rw [hmod hik, hc _ (hout hil hik), mul_zero]
            · rw [Nat.mod_eq_of_lt (by omega), hc _ (by omega), mul_zero]
          · rw [ha i (by omega), zero_mul]
    _ = linearConv l a c k := by
        refine Finset.sum_congr rfl fun i hi => ?_
        obtain ⟨-, hik, -⟩ := by simpa using hi
        rw [hmod hik]

/-- A transform of elements that are 0 from l upward sums over the first l alone. -/
theorem dft_eq_dft_of_zero_from {w : R} (hl : l ≤ n) (ha : ∀ m, l ≤ m → a m = 0) (k : Nat) :
    dft n w a k = dft l w a k := by
  refine (Finset.sum_subset (Finset.range_mono hl) fun m _ hm => ?_).symm
  rw [ha m (by simpa using hm), zero_mul]

end Sys2Proof.Machine
end

section
/-! What SQEXT leaves in its two buffers, as functions of the source's elements: the transform of the zero-filled
elements, and the product of the polynomial with itself (43_square_extend.md R171 to R174). -/

namespace Sys2Proof.Machine
variable {L : Nat} {a : List FieldElem}

theorem elemAt_of_length_le {k : Nat} (h : a.length ≤ k) : elemAt a k = 0 := List.getD_eq_default _ _ h

theorem valueAt_of_length_le {k : Nat} (h : a.length ≤ k) : valueAt a k = 0 := by
  rw [valueAt, elemAt_of_length_le h, fieldValue_zero]

theorem elemAt_append_zeros (a : List FieldElem) (m k : Nat) : elemAt (a ++ List.replicate m 0) k = elemAt a k := by
  by_cases h : k < a.length
  · exact List.getD_append _ _ _ _ h
  · have hle : a.length ≤ k := Nat.le_of_not_lt h
    rw [elemAt_of_length_le hle, elemAt, List.getD_append_right _ _ _ _ hle, List.getD_eq_getElem?_getD,
      List.getElem?_getD_replicate_default_eq]

/-- Zero-filling changes no element: those past the end count as 0. -/
theorem valueAt_append_zeros (a : List FieldElem) (m : Nat) : valueAt (a ++ List.replicate m 0) = valueAt a :=
  funext fun k => congrArg fieldValue (elemAt_append_zeros a m k)

theorem zeroFill_length {n : Nat} (h : a.length ≤ n) : (a ++ List.replicate (n - a.length) 0).length = n := by
  simp [h]

/-- The closed form of the spectrum (43_square_extend.md R173). -/
theorem valueAt_squareSpectrum (hL : L ≤ 23) (ha : a.length ≤ 2 ^ L) {k : Nat} (hk : k < 2 ^ L) :
    valueAt (squareSpectrum (2 ^ L) a) k = dft a.length (unityRoot (2 ^ L)) (valueAt a) k := by
  rw [squareSpectrum, valueAt_nttCore false hL (zeroFill_length ha) hk, valueAt_append_zeros, closedNtt_false,
    dft_eq_dft_of_zero_from ha fun m hm => valueAt_of_length_le hm]

/-- The inverse transform of the squared spectrum is the cyclic square of the elements. -/
theorem valueAt_nttCore_squared (hL : L ≤ 23) (ha : a.length ≤ 2 ^ L) {k : Nat} (hk : k < 2 ^ L) :
    valueAt (nttCore true (2 ^ L) ((squareSpectrum (2 ^ L) a).map fun v => fmul v v)) k =
      cyclicConv (2 ^ L) (valueAt a) (valueAt a) k := by
  have hconv := pointwiseProductIsCyclicConvolution L _ _ hL (zeroFill_length ha) (zeroFill_length ha) k hk
  rw [List.zipWith_self] at hconv
  rw [← valueAt_append_zeros a (2 ^ L - a.length)]
  exact hconv

/-- The whole result is the square of the polynomial, the zeros from n upward included (43_square_extend.md R172,
R174). -/
theorem valueAt_squareResult (nmax : Nat) (hL : L ≤ 23) (ha : 2 * a.length ≤ 2 ^ L + 1) (k : Nat) :
    valueAt (squareResult nmax (2 ^ L) a) k = linearConv a.length (valueAt a) (valueAt a) k := by
  have hpos := Nat.two_pow_pos L
  have hlen : a.length ≤ 2 ^ L := by omega
  rw [squareResult, valueAt_append_zeros]
  by_cases hk : k < 2 ^ L
  · have hzero : ∀ m, a.length ≤ m → valueAt a m = 0 := fun m hm => valueAt_of_length_le hm
    rw [valueAt_nttCore_squared hL hlen hk, cyclicConv_eq_linearConv hzero hzero ha hk]
  · rw [linearConv_eq_zero (by omega), valueAt_of_length_le]
    rw [nttCore_length, List.length_map, squareSpectrum_length hlen]
    omega

end Sys2Proof.Machine
end

section
/-! SQEXT: the square in the to-buffer, the spectrum in the from-buffer, and the frame (43_square_extend.md R171 to
R175). -/

namespace Sys2Proof.Machine
variable {s t u : State} {f : BufSel} {xl : RegNum} {a : Nat → FieldElem}

theorem OnlyCells.trans {p q : BufSel → Nat → Prop} (h1 : OnlyCells p s t) (h2 : OnlyCells q t u) :
    OnlyCells (fun b k => p b k ∨ q b k) s u := by
  obtain ⟨hf1, hx1, hc1, ⟨herr1, hinfo1⟩, hcfg1, hpend1, hrep1⟩ := h1
  obtain ⟨hf2, hx2, hc2, ⟨herr2, hinfo2⟩, hcfg2, hpend2, hrep2⟩ := h2
  refine ⟨fun r => (hf2 r).trans (hf1 r), fun r => (hx2 r).trans (hx1 r), fun b k hk => ?_,
    ⟨herr2.trans herr1, hinfo2.trans hinfo1⟩, hcfg2.trans hcfg1, hpend2.trans hpend1, hrep2.trans hrep1⟩
  exact (hc2 b k fun h => hk (.inr h)).trans (hc1 b k fun h => hk (.inl h))

theorem State.readCell_writeCells_same (s : State) (b : BufSel) {vs : List FieldElem} {k : Nat} (hk : k < vs.length) :
    (s.writeCells b vs).readCell b k = some (elemAt vs k) := by
  rw [State.readCell_writeCells, if_pos ⟨rfl, hk⟩, getElem?_eq_some_elemAt hk]

/-- SQEXT completes when the square fits NMAX and the source cells are written, and works on their elements. -/
theorem exec_sqext_of_holdsElems (tb : BufSel) (h0 : 0 ≤ s.readS64 xl)
    (hn : 2 * s.readS64 xl - 1 ≤ (s.nmax : Int)) (ha : HoldsElems s f (s.readS64 xl).toNat a) :
    ∃ u : List FieldElem, u.length = (s.readS64 xl).toNat ∧
      (∀ m < (s.readS64 xl).toNat, valueAt u m = fieldValue (a m)) ∧
      exec (.sqext tb f xl) s =
        .next ((s.writeCells f (squareSpectrum (sqLength (s.readS64 xl)) u)).writeCells tb
          (squareResult s.nmax (sqLength (s.readS64 xl)) u)) := by
  obtain ⟨u, hu, hlen, helem⟩ := ha.readCells_eq
  exact ⟨u, hlen, fun m hm => congrArg fieldValue (helem m hm),
    exec_sqext_of_good_length h0 (sqLength_le_nmax hn) hu⟩

/-- Settles O30: the whole to-buffer is written last, with the coefficients of the square. -/
theorem squareExtendResult : Obligations.SquareExtendResult := by
  intro s t f xl a h0 hn ha
  obtain ⟨u, hlen, hval, hexec⟩ := exec_sqext_of_holdsElems t h0 hn ha
  have hmax : sqLength (s.readS64 xl) ≤ s.nmax := sqLength_le_nmax hn
  have hfit : u.length ≤ sqLength (s.readS64 xl) := hlen ▸ toNat_le_sqLength _
  have hres := squareResult_length hfit hmax
  refine ⟨fun _ => decode_eq_ok_iff_word, _, hexec, fun k hk => ?_,
    (onlyCells_writeCells s f (squareSpectrum_length hfit)).trans (onlyCells_writeCells _ t hres)⟩
  refine ⟨_, State.readCell_writeCells_same _ t (hres.symm ▸ hk), ?_⟩
  have hcoeff : valueAt (squareResult s.nmax (sqLength (s.readS64 xl)) u) k =
      linearConv (s.readS64 xl).toNat (fun m => fieldValue (a m)) (fun m => fieldValue (a m)) k := by
    obtain ⟨L, hL, hsq⟩ := sqLength_eq_two_pow hmax
    have hroom := two_mul_toNat_le_sqLength (s.readS64 xl)
    rw [hsq] at hroom ⊢
    rw [valueAt_squareResult _ hL (hlen ▸ hroom), hlen, linearConv_congr hval hval]
  refine hcoeff.trans ?_
  split
  · rfl
  · exact linearConv_eq_zero (by omega)

/-- Settles O31: the later write goes to the other buffer, so the spectrum stays. -/
theorem squareExtendConsumesSource : Obligations.SquareExtendConsumesSource := by
  intro s t f xl a htf h0 hn ha
  obtain ⟨u, hlen, hval, hexec⟩ := exec_sqext_of_holdsElems t h0 hn ha
  have hfit : u.length ≤ sqLength (s.readS64 xl) := hlen ▸ toNat_le_sqLength _
  have hspec := squareSpectrum_length hfit
  refine ⟨_, hexec, fun k hk => ?_, fun k hk => ?_⟩
  · rw [State.readCell_writeCells, if_neg fun h => htf h.1.symm]
    refine ⟨_, State.readCell_writeCells_same s f (hspec.symm ▸ hk), ?_⟩
    obtain ⟨L, hL, hsq⟩ := sqLength_eq_two_pow (sqLength_le_nmax hn)
    rw [hsq] at hk hfit ⊢
    calc valueAt (squareSpectrum (2 ^ L) u) k
        = dft u.length (unityRoot (2 ^ L)) (valueAt u) k := valueAt_squareSpectrum hL hfit hk
      _ = dft (s.readS64 xl).toNat (unityRoot (2 ^ L)) (fun m => fieldValue (a m)) k := by
          rw [hlen]; exact dft_congr hval k
  · rw [State.readCell_writeCells, if_neg fun h => htf h.1.symm, State.readCell_writeCells,
      if_neg (by rw [hspec]; omega)]

end Sys2Proof.Machine
end

section
/-! The control commands NOP and CLRERR (44_control.md R180, R182): their words, their effects, and what a blocked unit
does with a word written to CMD. -/

namespace Sys2Proof.Machine

/-- A word whose opcode is assigned to a command, but which is not that command, has a bit set that must be zero
(30_encoding.md R83). -/
theorem decode_eq_mustBeZero {w used : Word32} {i : Instr} (hd : decode w = checkUnused w used i)
    (hne : decode w ≠ .ok i) : decode w = .error .mustBeZero := by
  rw [hd, checkUnused] at hne ⊢
  split
  case isTrue hz => exact absurd (if_pos hz) hne
  case isFalse => rfl

theorem decode_eq_nop_iff {w : Word32} : decode w = .ok .nop ↔ w = 0x00000000 := decode_eq_ok_iff_word

theorem decode_eq_clrerr_iff {w : Word32} : decode w = .ok .clrerr ↔ w = 0x20000000 := decode_eq_ok_iff_word

/-- The opcodes of NOP and CLRERR use no field, so that each has one legal word (44_control.md R180, R182). -/
theorem decode_eq_mustBeZero_of_control_opcode {w : Word32} (hopc : opcOf w = 0x00 ∨ opcOf w = 0x20)
    (hnop : w ≠ 0x00000000) (hclrerr : w ≠ 0x20000000) : decode w = .error .mustBeZero := by
  rcases hopc with h | h
  · exact decode_eq_mustBeZero (used := 0) (by simp only [decode, h]) (mt decode_eq_nop_iff.1 hnop)
  · exact decode_eq_mustBeZero (used := 0) (by simp only [decode, h]) (mt decode_eq_clrerr_iff.1 hclrerr)

theorem issueCommand_clrerr_blocked {s : State} (he : s.err ≠ 0) : issueCommand clrerrWord s = .next s.clearError := by
  rw [issueCommand, if_pos he, if_pos rfl]

/-- Settles O16: the two commands are decoded from one word each, the other words of their opcodes fail the check of
unused bits, and a blocked unit runs the word of CLRERR alone. -/
theorem nopAndClrerrResults : Obligations.NopAndClrerrResults := by
  refine ⟨fun _ => decode_eq_nop_iff, fun _ => decode_eq_clrerr_iff, fun w hopc => ?_, fun s => ⟨rfl, rfl⟩,
    fun s w rest hp he => ?_⟩
  · rw [← opcOf_eq] at hopc
    exact decode_eq_mustBeZero_of_control_opcode hopc
  · rw [step_cmd hp]
    split
    case isTrue hw => exact hw ▸ issueCommand_clrerr_blocked he
    case isFalse hw => exact issueCommand_blocked he hw

end Sys2Proof.Machine
end

section
/-! What a write to CMD does, blocked or not (60_exceptions.md R204). -/

namespace Sys2Proof.Machine

/-- Settles O5: the write issues its word, and each clause is one outcome of issuing. -/
theorem commandWriteIsIssued : Obligations.CommandWriteIsIssued := by
  intro s w rest hp
  refine ⟨fun he hw => ?_, fun he hw => ?_, fun he e hd => ?_, fun he i hd => step_command hp he hd⟩
  · subst hw
    exact (step_cmd hp).trans (issueCommand_clrerr_blocked he)
  · exact (step_cmd hp).trans (issueCommand_blocked he hw)
  · exact (step_cmd hp).trans (issueCommand_of_error he hd)

end Sys2Proof.Machine
end

section
/-! Reads of Unwritten cells (60_exceptions.md R201). -/

namespace Sys2Proof.Machine
variable {s : State} {b t f : BufSel} {xl xn : RegNum} {k L : Nat}

/-- One Unwritten cell in [0, n) leaves no list to read. -/
theorem readCells_eq_none {n : Nat} (hu : s.readCell b k = none) (hk : k < n) : s.readCells b n = none := by
  rw [← Option.not_isSome_iff_eq_none, readCells_isSome]
  intro h
  simpa [hu] using h k hk

theorem inPlaceCommand_of_unwritten (i : Instr) (g : Nat → List FieldElem → List FieldElem)
    (hu : s.readCell b k = none) (hL : L ≤ s.cfg.log2Nmax.val) (hn : s.readS64 xn = 2 ^ L) (hk : k < 2 ^ L) :
    inPlaceCommand i b xn g s = .fault .uninitRead :=
  inPlaceCommand_uninit (validLength_of_eq_two_pow hL hn)
    (readCells_eq_none hu (by rwa [toNat_of_eq_two_pow hn]))

/-- SQEXT with a legal length stops when its source cells are not all written. -/
theorem exec_sqext_of_unwritten (hv : validSquareLength s.nmax (s.readS64 xl) = true)
    (hu : s.readCells f (s.readS64 xl).toNat = none) : exec (.sqext t f xl) s = .fault .uninitRead := by
  rw [exec, execSqext, if_pos hv, hu]

/-- Settles O32: each command passes its operand check and then finds no value to read; a host read finds none in its
cell. -/
theorem uninitReadStops : Obligations.UninitReadStops := by
  intro s b k hu
  refine ⟨fun fd xi hi hk => ?fld, fun xn L hL hn hk => ?inPlace, fun t xl h0 hn => ?sqext,
    fun a rest hk ha hp => ?hostRead⟩
  case fld =>
    exact stopsUninit_of_exec (exec_fld_of_unwritten (validIndex_iff.2 (by omega)) (by rwa [hi, Int.toNat_natCast]))
  case inPlace =>
    exact ⟨stopsUninit_of_exec (inPlaceCommand_of_unwritten (.brperm b xn) _ hu hL hn hk),
      stopsUninit_of_exec (inPlaceCommand_of_unwritten (.nttf b xn) _ hu hL hn hk),
      stopsUninit_of_exec (inPlaceCommand_of_unwritten (.ntti b xn) _ hu hL hn hk)⟩
  case sqext =>
    have hv := validSquareLength_iff.2 ⟨by omega, sqLength_le_nmax hn⟩
    exact stopsUninit_of_exec (exec_sqext_of_unwritten hv (readCells_eq_none hu (by omega)))
  case hostRead =>
    have hstep := ((hostCellAccess s rest b k a hk ha).1 hp).2 hu
    exact ⟨hstep, core_run_fault hstep⟩

end Sys2Proof.Machine
end

section
/-! The errors of the commands: what raising one leaves, and which operands raise which (60_exceptions.md R200, R202,
R203, R205). -/

namespace Sys2Proof.Machine
variable {i : Instr} {s t : State}

/-- A command that changes the latch is CLRERR or one that raises an error. -/
theorem CommandEffect.raises_of_not_sameStatus (h : CommandEffect i s t) (hi : i ≠ .clrerr) (hne : ¬ SameStatus s t) :
    ∃ e, t = s.raiseError e (encode i) := by
  cases h with
  | raises e => exact ⟨e, rfl⟩
  | clears hc => exact absurd hc hi
  | nothing | writesF | writesX => exact absurd ⟨rfl, rfl⟩ hne
  | writesCell | writesCells | writesBoth => exact absurd (by simp [SameStatus]) hne

/-- Settles O34: the command raises an error, which keeps the latch unless it is clear, and writes nothing else. -/
theorem errorsArePrecise : Obligations.ErrorsArePrecise := by
  intro i s t h hi hne
  obtain ⟨e, rfl⟩ := (exec_effect h).raises_of_not_sameStatus hi hne
  obtain hsame | ⟨h0, herr⟩ := raiseError_latch s e (encode i)
  · exact absurd hsame hne
  · exact ⟨h0, herr, by rw [raiseError_of_clear h0], onlyStatus_latched (errorCode e) (encode i) s⟩

theorem err_eq_of_next {r : Result} {u : State} (hr : r = .next u) (hu : u.err = s.err) (h : r = .next t) :
    t.err = s.err := by
  cases hr.symm.trans h
  exact hu

/-- A command whose check raises `code` on the operands `bad` and keeps the latch on all others: where it latches an
error, the error is `code` and the operands are `bad`. -/
theorem error_of_check {bad : Prop} {code : BitVec 4} {info : Word32} (hs : s.err = 0) (h : exec i s = .next t)
    (ht : t.err ≠ 0) (hbad : bad → exec i s = .next (latched code info s)) (hgood : ¬ bad → t.err = s.err) :
    t.err = code ∧ bad := by
  by_cases hb : bad
  · cases (hbad hb).symm.trans h
    exact ⟨by rw [latched_of_clear hs], hb⟩
  · exact absurd ((hgood hb).trans hs) ht

theorem err_of_fld_good_index {fd xi : RegNum} {b : BufSel} (hv : validIndex s.nmax (s.readS64 xi) = true)
    (h : exec (.fld fd b xi) s = .next t) : t.err = s.err := by
  cases hc : s.readCell b (s.readS64 xi).toNat with
  | none => rw [exec_fld_of_unwritten hv hc] at h; cases h
  | some v => exact err_eq_of_next (exec_fld_of_written hv hc) rfl h

theorem err_of_sqext_good_length {tb f : BufSel} {xl : RegNum} (h0 : 0 ≤ s.readS64 xl)
    (hn : sqLength (s.readS64 xl) ≤ s.nmax) (h : exec (.sqext tb f xl) s = .next t) : t.err = s.err := by
  cases ha : s.readCells f (s.readS64 xl).toNat with
  | none => rw [exec_sqext_of_unwritten (validSquareLength_iff.2 ⟨h0, hn⟩) ha] at h; cases h
  | some a => exact err_eq_of_next (exec_sqext_of_good_length h0 hn ha) (by simp) h

/-- BREV, BRPERM, NTTF and NTTI latch an error for a bad length only (41_bit_reversal.md R143). -/
theorem error_of_length_check {b : BufSel} {xn : RegNum}
    (hi : i = .brev b xn ∨ i = .brperm b xn ∨ i = .nttf b xn ∨ i = .ntti b xn) (hs : s.err = 0)
    (h : exec i s = .next t) (ht : t.err ≠ 0) :
    t.err = 2 ∧ ∃ b xn, (i = .brev b xn ∨ i = .brperm b xn ∨ i = .nttf b xn ∨ i = .ntti b xn) ∧
      ∀ L ≤ s.cfg.log2Nmax.val, s.readS64 xn ≠ 2 ^ L := by
  obtain ⟨hbad, hgood⟩ := lengthCheckRule s b xn
  suffices hcheck : t.err = 2 ∧ ∀ L ≤ s.cfg.log2Nmax.val, s.readS64 xn ≠ 2 ^ L from
    hcheck.imp_right fun hlen => ⟨b, xn, hi, hlen⟩
  refine error_of_check (info := encode i) hs h ht (fun hb => ?_) (fun hb => ?_)
  · obtain ⟨hbrev, hbrperm, hnttf, hntti⟩ := hbad hb
    rw [encode_eq_word]
    obtain rfl | rfl | rfl | rfl := hi
    exacts [hbrev, hbrperm, hnttf, hntti]
  · push Not at hb
    exact (hgood hb i (by simpa using hi) t h).1

/-- Settles O35: a command without an operand check keeps the latch, and each of the others raises its code where the
check fails and keeps the latch where it passes. -/
theorem errorCodesByCommand : Obligations.ErrorCodesByCommand := by
  intro i s t hs h ht
  cases i with
  | nop | fadd | fsub | fmul | feq | fnew | clrerr => cases h; exact absurd (by simp [hs]) ht
  | fdiv fd fa fb =>
    obtain ⟨hcode, hzero⟩ := error_of_check hs h ht exec_fdiv_of_eq_zero
      fun hne => err_eq_of_next (exec_fdiv_of_ne_zero hne) rfl h
    exact .inl ⟨hcode, .inl ⟨fd, fa, fb, rfl, hzero⟩⟩
  | finv fd fa =>
    obtain ⟨hcode, hzero⟩ := error_of_check hs h ht exec_finv_of_eq_zero
      fun hne => err_eq_of_next (exec_finv_of_ne_zero hne) rfl h
    exact .inl ⟨hcode, .inr ⟨fd, fa, rfl, hzero⟩⟩
  | brev => exact .inr (.inl (error_of_length_check (.inl rfl) hs h ht))
  | brperm => exact .inr (.inl (error_of_length_check (.inr (.inl rfl)) hs h ht))
  | nttf => exact .inr (.inl (error_of_length_check (.inr (.inr (.inl rfl))) hs h ht))
  | ntti => exact .inr (.inl (error_of_length_check (.inr (.inr (.inr rfl))) hs h ht))
  | sqext tb f xl =>
    obtain ⟨hcode, hlen⟩ := error_of_check hs h ht exec_sqext_of_bad_length
      fun hb => err_of_sqext_good_length (by omega) (by omega) h
    exact .inr (.inr (.inl ⟨hcode, tb, f, xl, rfl, hlen⟩))
  | fpow fd fa xe =>
    obtain ⟨hcode, hexp⟩ := error_of_check hs h ht exec_fpow_of_lt_one
      fun hb => err_eq_of_next (exec_fpow_of_one_le (not_lt.1 hb)) rfl h
    exact .inr (.inr (.inr (.inl ⟨hcode, fd, fa, xe, rfl, hexp⟩)))
  | fld fd b xi =>
    obtain ⟨hcode, hidx⟩ := error_of_check hs h ht exec_fld_of_bad_index
      fun hb => err_of_fld_good_index (validIndex_iff.2 (by omega)) h
    exact .inr (.inr (.inr (.inr ⟨hcode, b, xi, .inl ⟨fd, rfl⟩, hidx⟩)))
  | fst fs b xi =>
    obtain ⟨hcode, hidx⟩ := error_of_check hs h ht exec_fst_of_bad_index
      fun hb => err_eq_of_next (exec_fst_of_good_index (validIndex_iff.2 (by omega))) (by simp) h
    exact .inr (.inr (.inr (.inr ⟨hcode, b, xi, .inr ⟨fs, rfl⟩, hidx⟩)))

end Sys2Proof.Machine
end

section
/-! The idle unit and reset (70_reset_and_hazards.md R230, R231). -/

namespace Sys2Proof.Machine

/-- Settles O51: the model serves nothing when nothing is pending. -/
theorem idleStepChangesNothing : Obligations.IdleStepChangesNothing := fun _ => step_idle

/-- Settles O46: the step answers the state right after reset of the same configuration, but for the host's side of
the port. -/
theorem resetRestoresState : Obligations.ResetRestoresState := by
  intro s rest hp
  obtain ⟨hf, hx, -, herr, hinfo, hcfg⟩ := resetState.1 s.cfg
  refine ⟨_, step_serve hp, hf, hx, fun b k => ?_, herr, hinfo, hcfg⟩
  rw [State.readCell, resetUnit_buffer, Memory.read_nil]

end Sys2Proof.Machine
end

section
/-! Completion of the commands (70_reset_and_hazards.md R232, R237; 93_implementation_defined.md I3): one that reads no
cell always gives a next state, and one that reads cells stops only where its operand check passes and a cell it reads
is Unwritten. -/

namespace Sys2Proof.Machine
variable {s : State} {b : BufSel} {n : Nat}

/-- The command gives a next state: it neither faults nor is refused. -/
def Completes (r : Result) : Prop := ∃ t, r = .next t

/-- The answer is a next state when `p` holds, and the fault UninitRead when it does not. -/
def CompletesIff (p : Prop) (r : Result) : Prop := (p → Completes r) ∧ (¬ p → r = .fault .uninitRead)

theorem Completes.completesIff_true {r : Result} (h : Completes r) : CompletesIff True r :=
  ⟨fun _ => h, fun hn => absurd trivial hn⟩

/-- An operand check whose two outcomes both give a next state. -/
theorem completes_ite {c : Prop} [Decidable c] (t u : State) : Completes (if c then .next t else .next u) := by
  split
  · exact ⟨t, rfl⟩
  · exact ⟨u, rfl⟩

/-- An operand check, and the reads that only a command which passed it makes. -/
theorem completesIff_of_check {valid written : Prop} {r : Result} (hbad : ¬ valid → Completes r)
    (hgood : valid → written → Completes r) (hstop : valid → ¬ written → r = .fault .uninitRead) :
    CompletesIff (valid → written) r := by
  refine ⟨fun h => ?_, fun h => ?_⟩
  · by_cases hv : valid
    · exact hgood hv (h hv)
    · exact hbad hv
  · obtain ⟨hv, hw⟩ := Classical.not_imp.1 h
    exact hstop hv hw

theorem readCells_eq_none_of_not_written (h : ¬ ∀ k < n, s.readCell b k ≠ none) : s.readCells b n = none := by
  push Not at h
  obtain ⟨k, hk, hu⟩ := h
  exact readCells_eq_none hu hk

theorem inPlaceCommand_completesIff (i : Instr) (b : BufSel) (xn : RegNum)
    (g : Nat → List FieldElem → List FieldElem) (s : State) :
    CompletesIff (validLength s.nmax (s.readS64 xn) → ∀ k < (s.readS64 xn).toNat, s.readCell b k ≠ none)
      (inPlaceCommand i b xn g s) := by
  refine completesIff_of_check (fun hv => ?_) (fun hv hw => ?_) fun hv hw => ?_
  · exact ⟨_, inPlaceCommand_bad (Bool.eq_false_of_not_eq_true hv)⟩
  · obtain ⟨a, ha⟩ := exists_readCells hw
    exact ⟨_, inPlaceCommand_good hv ha⟩
  · exact inPlaceCommand_uninit hv (readCells_eq_none_of_not_written hw)

theorem exec_fld_completesIff (fd : RegNum) (b : BufSel) (xi : RegNum) (s : State) :
    CompletesIff (InputsWritten (.fld fd b xi) s) (exec (.fld fd b xi) s) := by
  refine completesIff_of_check (fun hv => ?_) (fun hv hw => ?_) fun hv hw => ?_
  · exact ⟨_, if_neg hv⟩
  · obtain ⟨v, hread⟩ := Option.ne_none_iff_exists'.1 hw
    exact ⟨_, exec_fld_of_written hv hread⟩
  · exact exec_fld_of_unwritten hv (not_not.1 hw)

theorem exec_sqext_completesIff (t f : BufSel) (xl : RegNum) (s : State) :
    CompletesIff (InputsWritten (.sqext t f xl) s) (exec (.sqext t f xl) s) := by
  refine completesIff_of_check (fun hv => ?_) (fun hv hw => ?_) fun hv hw => ?_
  · exact ⟨_, if_neg hv⟩
  · obtain ⟨a, ha⟩ := exists_readCells hw
    obtain ⟨h0, hn⟩ := validSquareLength_iff.1 hv
    exact ⟨_, exec_sqext_of_good_length h0 hn ha⟩
  · exact exec_sqext_of_unwritten hv (readCells_eq_none_of_not_written hw)

/-- Settles O33: a command that reads no cell has at most an operand check, which only chooses between two next states;
each of the others finds the cells it reads written, or stops. -/
theorem everyCommandCompletes : Obligations.EveryCommandCompletes := by
  intro i s
  show CompletesIff (InputsWritten i s) (exec i s)
  cases i with
  | nop | fadd | fsub | fmul | feq | fnew | clrerr => exact Completes.completesIff_true ⟨_, rfl⟩
  | fdiv | finv | fpow | fst | brev => exact (completes_ite _ _).completesIff_true
  | fld fd b xi => exact exec_fld_completesIff fd b xi s
  | brperm b xn => exact inPlaceCommand_completesIff (.brperm b xn) b xn reorder s
  | nttf b xn => exact inPlaceCommand_completesIff (.nttf b xn) b xn (nttCore false) s
  | ntti b xn => exact inPlaceCommand_completesIff (.ntti b xn) b xn (nttCore true) s
  | sqext t f xl => exact exec_sqext_completesIff t f xl s

end Sys2Proof.Machine
end

section
/-! Runs of a unit whose buffers are fully written: every step completes, and unless it serves a reset it leaves the
buffers fully written (70_reset_and_hazards.md R232, R237; 60_exceptions.md R201). -/

namespace Sys2Proof.Machine
variable {s : State}

/-- Every cell of both buffers is written. -/
def FullyWritten (s : State) : Prop := ∀ b, ∀ k < s.nmax, s.readCell b k ≠ none

theorem FullyWritten.withPending (h : FullyWritten s) (q : List HostInput) :
    FullyWritten { s with pending := q } := fun b k hk => by simpa using h b k hk

/-- The operand check of a command keeps the cells it reads below NMAX (60_exceptions.md R205). -/
theorem FullyWritten.inputsWritten (h : FullyWritten s) (i : Instr) : InputsWritten i s := by
  have cells {b : BufSel} {xn : RegNum} (hv : validLength s.nmax (s.readS64 xn)) :
      ∀ k < (s.readS64 xn).toNat, s.readCell b k ≠ none := by
    obtain ⟨-, -, hn⟩ := validLength_iff.1 hv
    exact fun k hk => h b k (by omega)
  cases i with
  | fld fd b xi =>
    intro hv
    obtain ⟨h0, hn⟩ := validIndex_iff.1 hv
    exact h b _ (by omega)
  | brperm | nttf | ntti => exact cells
  | sqext t f xl =>
    intro hv k hk
    obtain ⟨-, hn⟩ := validSquareLength_iff.1 hv
    have hfl := toNat_le_sqLength (s.readS64 xl)
    exact h f k (by omega)
  | nop | fadd | fsub | fmul | fdiv | finv | fpow | feq | fnew | fst | brev | clrerr => trivial

theorem FullyWritten.exec_completes (h : FullyWritten s) (i : Instr) : Completes (exec i s) :=
  (everyCommandCompletes i s).1 (h.inputsWritten i)

theorem issueCommand_of_ok {w : Word32} {i : Instr} (he : s.err = 0) (hd : decode w = .ok i) :
    issueCommand w s = exec i s := by
  rw [issueCommand, if_neg (not_not.2 he), hd]

theorem FullyWritten.issueCommand_completes (h : FullyWritten s) (w : Word32) : Completes (issueCommand w s) := by
  by_cases he : s.err = 0
  · cases hd : decode w with
    | error e => exact ⟨_, issueCommand_of_error he hd⟩
    | ok i => exact issueCommand_of_ok he hd ▸ h.exec_completes i
  · by_cases hw : w = clrerrWord
    · exact ⟨_, hw ▸ issueCommand_clrerr_blocked he⟩
    · exact ⟨_, issueCommand_blocked he hw⟩

/-- Every location of the map but CMD answers a word, a cell among them because it lies below NMAX. -/
theorem FullyWritten.exists_wordAt (h : FullyWritten s) {a : Word32} {loc : PortLoc}
    (hl : portLoc s.nmax a = some loc) (hc : loc ≠ .cmd) : ∃ w, wordAt s loc = some w := by
  cases loc with
  | cmd => exact absurd rfl hc
  | cell b k =>
    obtain ⟨v, hv⟩ := Option.ne_none_iff_exists'.1 (h b k ((portLoc_offset hl).2 b k rfl))
    exact ⟨fieldWord v, by simp [wordAt, hv]⟩
  | _ => exact ⟨_, rfl⟩

theorem FullyWritten.hostRead_completes (h : FullyWritten s) (a : Word32) : Completes (hostRead a s) := by
  by_cases hr : Readable s.nmax a.toNat
  · obtain ⟨loc, hl, hc⟩ := portLoc_of_readable s.cfg.nmax_le hr
    obtain ⟨w, hw⟩ := h.exists_wordAt hl hc
    exact ⟨_, hostRead_of_wordAt_some hl hw⟩
  · exact ⟨_, hostRead_of_not_readable hr⟩

theorem FullyWritten.hostWrite_completes (h : FullyWritten s) (a v : Word32) : Completes (hostWrite a v s) := by
  by_cases hc : a = cmdOffset
  · subst hc
    exact h.issueCommand_completes v
  · by_cases hw : Writable s.nmax a.toNat
    · obtain ⟨loc, hl, hd⟩ := portLoc_of_writable hw hc
      exact ⟨_, hostWrite_data v hl hd⟩
    · exact ⟨_, hostWrite_of_not_writable v hw⟩

theorem FullyWritten.step_completes (h : FullyWritten s) : Completes (step s) := by
  cases hp : s.pending with
  | nil => exact ⟨s, step_idle hp⟩
  | cons e rest =>
    rw [step_serve hp]
    cases e with
    | read a => exact (h.withPending rest).hostRead_completes a
    | write a v => exact (h.withPending rest).hostWrite_completes a v
    | reset => exact ⟨_, rfl⟩

/-- A step that serves no reset leaves every cell written, since NMAX stays as it is. -/
theorem FullyWritten.of_step {t : State} (h : FullyWritten s) (ht : step s = .next t)
    (hr : s.pending.head? ≠ some .reset) : FullyWritten t := by
  intro b k hk
  obtain ⟨hcfg, -⟩ := stepServesOneAccess s t ht
  have hn : t.nmax = s.nmax := congrArg Config.nmax hcfg
  exact writtenCellsStayWritten s t b k ht hr (h b k (hn ▸ hk))

/-- Settles O53, by induction on the number of steps: each step completes, leaves the buffers fully written, and adds
no reset to the pending inputs. -/
theorem fullBuffersRunSafely : Obligations.FullBuffersRunSafely := by
  intro s n
  induction n generalizing s with
  | zero => exact fun _ _ => ⟨s, rfl⟩
  | succ n ih =>
    intro (hw : FullyWritten s) hr
    obtain ⟨t, ht⟩ := hw.step_completes
    obtain ⟨-, htail, -⟩ := stepServesOneAccess s t ht
    have hwt : FullyWritten t := hw.of_step ht fun h0 => hr (List.mem_of_mem_head? h0)
    have hrt : .reset ∉ t.pending := fun hmem => hr (List.mem_of_mem_tail (htail ▸ hmem))
    obtain ⟨u, hu⟩ := ih t hwt hrt
    exact ⟨u, (core_run_next ht n).trans hu⟩

end Sys2Proof.Machine
end
